-- ==== Sys2Proof/Word.lean ====
section
/-! DEFINITION. The widths of the machine's values (spec 00_scope.md R8, R11; 30_encoding.md R91). -/

namespace Sys2Proof

/-- A byte of memory, a general register or a timer: 8 bits, unsigned (R8 `REG_W`, `TIMER_W`). -/
abbrev Byte := BitVec 8

/-- `I`, `pc`, a stack entry or an opcode: 16 bits (R8 `I_W`, `PC_W`; R90). -/
abbrev Word := BitVec 16

/-- The field `nnn` of an opcode: 12 bits (R91). -/
abbrev Addr := BitVec 12

/-- A 4-bit field of an opcode: a register number `x` or `y`, or the sprite height `n` (R91). -/
abbrev Nibble := BitVec 4

end Sys2Proof
end

