-- ==== Sys2Proof/Syntax.lean ====
section
/-! DEFINITION. The instructions: one constructor per row of spec/opcode_table.json (30_encoding.md R96). -/

namespace Sys2Proof

/-- The 35 patterns of R96 in table order, then the unknown words (R98). A constructor carries every field its
row has, the ignored `y` of `8xy6` and `8xyE` too (R97), so that no bit of a word is lost. -/
inductive Instr where
  /-- `00E0`, `CLS` -/
  | cls
  /-- `00EE`, `RET` -/
  | ret
  /-- `0nnn` other than `00E0` and `00EE`, `SYS nnn` -/
  | sysNnn (nnn : Addr)
  /-- `1nnn`, `JP nnn` -/
  | jpNnn (nnn : Addr)
  /-- `2nnn`, `CALL nnn` -/
  | callNnn (nnn : Addr)
  /-- `3xkk`, `SE Vx, kk` -/
  | seVxKk (x : Nibble) (kk : Byte)
  /-- `4xkk`, `SNE Vx, kk` -/
  | sneVxKk (x : Nibble) (kk : Byte)
  /-- `5xy0`, `SE Vx, Vy` -/
  | seVxVy (x y : Nibble)
  /-- `6xkk`, `LD Vx, kk` -/
  | ldVxKk (x : Nibble) (kk : Byte)
  /-- `7xkk`, `ADD Vx, kk` -/
  | addVxKk (x : Nibble) (kk : Byte)
  /-- `8xy0`, `LD Vx, Vy` -/
  | ldVxVy (x y : Nibble)
  /-- `8xy1`, `OR Vx, Vy` -/
  | orVxVy (x y : Nibble)
  /-- `8xy2`, `AND Vx, Vy` -/
  | andVxVy (x y : Nibble)
  /-- `8xy3`, `XOR Vx, Vy` -/
  | xorVxVy (x y : Nibble)
  /-- `8xy4`, `ADD Vx, Vy` -/
  | addVxVy (x y : Nibble)
  /-- `8xy5`, `SUB Vx, Vy` -/
  | subVxVy (x y : Nibble)
  /-- `8xy6`, `SHR Vx`; `y` is decoded and ignored -/
  | shrVx (x y : Nibble)
  /-- `8xy7`, `SUBN Vx, Vy` -/
  | subnVxVy (x y : Nibble)
  /-- `8xyE`, `SHL Vx`; `y` is decoded and ignored -/
  | shlVx (x y : Nibble)
  /-- `9xy0`, `SNE Vx, Vy` -/
  | sneVxVy (x y : Nibble)
  /-- `Annn`, `LD I, nnn` -/
  | ldINnn (nnn : Addr)
  /-- `Bnnn`, `JP V0, nnn` -/
  | jpV0Nnn (nnn : Addr)
  /-- `Cxkk`, `RND Vx, kk` -/
  | rndVxKk (x : Nibble) (kk : Byte)
  /-- `Dxyn`, `DRW Vx, Vy, n` -/
  | drwVxVyN (x y n : Nibble)
  /-- `Ex9E`, `SKP Vx` -/
  | skpVx (x : Nibble)
  /-- `ExA1`, `SKNP Vx` -/
  | sknpVx (x : Nibble)
  /-- `Fx07`, `LD Vx, DT` -/
  | ldVxDt (x : Nibble)
  /-- `Fx0A`, `LD Vx, K` -/
  | ldVxK (x : Nibble)
  /-- `Fx15`, `LD DT, Vx` -/
  | ldDtVx (x : Nibble)
  /-- `Fx18`, `LD ST, Vx` -/
  | ldStVx (x : Nibble)
  /-- `Fx1E`, `ADD I, Vx` -/
  | addIVx (x : Nibble)
  /-- `Fx29`, `LD F, Vx` -/
  | ldFVx (x : Nibble)
  /-- `Fx33`, `LD B, Vx` -/
  | ldBVx (x : Nibble)
  /-- `Fx55`, `LD [I], Vx` -/
  | ldMemVx (x : Nibble)
  /-- `Fx65`, `LD Vx, [I]` -/
  | ldVxMem (x : Nibble)
  /-- every word no pattern matches, `UNKNOWN`; it carries the word, which `diag` reports (R127) -/
  | unknown (op : Word)
  deriving DecidableEq, Repr

end Sys2Proof
end

