-- ==== Sys2Proof/WellFormed.lean ====
section
/-! DEFINITION. The checks an instruction must pass to stand for a word of its own row (30_encoding.md R96, R98, R99). -/

namespace Sys2Proof

/-- The words of family `8` that no row takes: `n` in `{8, 9, A, B, C, D, F}` (R98). -/
def unknownNibble8 (n : Nibble) : Bool :=
  n == 0x8 || n == 0x9 || n == 0xA || n == 0xB || n == 0xC || n == 0xD || n == 0xF

/-- The low bytes that select an instruction of family `F` (R96 rows 27 to 35). -/
def knownByteF (kk : Byte) : Bool :=
  kk == 0x07 || kk == 0x0A || kk == 0x15 || kk == 0x18 || kk == 0x1E || kk == 0x29 || kk == 0x33 ||
    kk == 0x55 || kk == 0x65

/-- The unknown words, as the table of R98 lists them family by family. -/
def unknownWord (op : Word) : Bool :=
  let top := op.extractLsb' 12 4
  let n := op.extractLsb' 0 4
  let kk := op.extractLsb' 0 8
  (top == 0x5 && n != 0) || (top == 0x8 && unknownNibble8 n) || (top == 0x9 && n != 0) ||
    (top == 0xE && kk != 0x9E && kk != 0xA1) || (top == 0xF && !knownByteF kk)

/-- An instruction is well formed when it stands for a word of its own row: `0nnn` is neither `00E0` nor `00EE`
(R99), and an unknown word is one that R98 lists. Every other field may hold every value of its width. -/
def Instr.wellFormed : Instr → Bool
  | .sysNnn nnn => nnn != 0x0E0 && nnn != 0x0EE
  | .unknown op => unknownWord op
  | .cls | .ret | .jpNnn _ | .callNnn _ | .seVxKk _ _ | .sneVxKk _ _ | .seVxVy _ _ | .ldVxKk _ _ | .addVxKk _ _
  | .ldVxVy _ _ | .orVxVy _ _ | .andVxVy _ _ | .xorVxVy _ _ | .addVxVy _ _ | .subVxVy _ _ | .shrVx _ _
  | .subnVxVy _ _ | .shlVx _ _ | .sneVxVy _ _ | .ldINnn _ | .jpV0Nnn _ | .rndVxKk _ _ | .drwVxVyN _ _ _
  | .skpVx _ | .sknpVx _ | .ldVxDt _ | .ldVxK _ | .ldDtVx _ | .ldStVx _ | .addIVx _ | .ldFVx _ | .ldBVx _
  | .ldMemVx _ | .ldVxMem _ => true

end Sys2Proof
end

