-- ==== Sys2Proof/Decode.lean ====
section
/-! DEFINITION. The decoder, total on every word and every list of bytes, and the encoder (30_encoding.md). -/

namespace Sys2Proof

/-! The field cut of R91: the same fields of every word, before the instruction is known. -/

/-- `top = op[15:12]`, the primary opcode. -/
def fieldTop (op : Word) : Nibble := op.extractLsb' 12 4

/-- `nnn = op[11:0]`. -/
def fieldNnn (op : Word) : Addr := op.extractLsb' 0 12

/-- `x = op[11:8]`. -/
def fieldX (op : Word) : Nibble := op.extractLsb' 8 4

/-- `y = op[7:4]`. -/
def fieldY (op : Word) : Nibble := op.extractLsb' 4 4

/-- `n = op[3:0]`. -/
def fieldN (op : Word) : Nibble := op.extractLsb' 0 4

/-- `kk = op[7:0]`. -/
def fieldKk (op : Word) : Byte := op.extractLsb' 0 8

/-- Family `0`: matched on the whole word (R94, R99). -/
def decodeFamily0 (op : Word) : Instr :=
  if fieldNnn op = 0x0E0 then .cls
  else if fieldNnn op = 0x0EE then .ret
  else .sysNnn (fieldNnn op)

/-- Family `8`: the second level is the low nibble (R94). -/
def decodeFamily8 (op : Word) : Instr :=
  if fieldN op = 0x0 then .ldVxVy (fieldX op) (fieldY op)
  else if fieldN op = 0x1 then .orVxVy (fieldX op) (fieldY op)
  else if fieldN op = 0x2 then .andVxVy (fieldX op) (fieldY op)
  else if fieldN op = 0x3 then .xorVxVy (fieldX op) (fieldY op)
  else if fieldN op = 0x4 then .addVxVy (fieldX op) (fieldY op)
  else if fieldN op = 0x5 then .subVxVy (fieldX op) (fieldY op)
  else if fieldN op = 0x6 then .shrVx (fieldX op) (fieldY op)
  else if fieldN op = 0x7 then .subnVxVy (fieldX op) (fieldY op)
  else if fieldN op = 0xE then .shlVx (fieldX op) (fieldY op)
  else .unknown op

/-- Family `E`: the second level is the low byte (R94). -/
def decodeFamilyE (op : Word) : Instr :=
  if fieldKk op = 0x9E then .skpVx (fieldX op)
  else if fieldKk op = 0xA1 then .sknpVx (fieldX op)
  else .unknown op

/-- Family `F`: the second level is the low byte (R94). -/
def decodeFamilyF (op : Word) : Instr :=
  if fieldKk op = 0x07 then .ldVxDt (fieldX op)
  else if fieldKk op = 0x0A then .ldVxK (fieldX op)
  else if fieldKk op = 0x15 then .ldDtVx (fieldX op)
  else if fieldKk op = 0x18 then .ldStVx (fieldX op)
  else if fieldKk op = 0x1E then .addIVx (fieldX op)
  else if fieldKk op = 0x29 then .ldFVx (fieldX op)
  else if fieldKk op = 0x33 then .ldBVx (fieldX op)
  else if fieldKk op = 0x55 then .ldMemVx (fieldX op)
  else if fieldKk op = 0x65 then .ldVxMem (fieldX op)
  else .unknown op

/-- Families `5` and `9`: the low nibble must be 0 (R94, 90_conflicts.md C3). -/
def whenNibbleZero (op : Word) (i : Instr) : Instr :=
  if fieldN op = 0x0 then i else .unknown op

/-- The instruction of a word: dispatch on the high nibble, then in families `0`, `5`, `8`, `9`, `E`, `F` on the
second level (R94). Every word has one. -/
def decodeWord (op : Word) : Instr :=
  if fieldTop op = 0x0 then decodeFamily0 op
  else if fieldTop op = 0x1 then .jpNnn (fieldNnn op)
  else if fieldTop op = 0x2 then .callNnn (fieldNnn op)
  else if fieldTop op = 0x3 then .seVxKk (fieldX op) (fieldKk op)
  else if fieldTop op = 0x4 then .sneVxKk (fieldX op) (fieldKk op)
  else if fieldTop op = 0x5 then whenNibbleZero op (.seVxVy (fieldX op) (fieldY op))
  else if fieldTop op = 0x6 then .ldVxKk (fieldX op) (fieldKk op)
  else if fieldTop op = 0x7 then .addVxKk (fieldX op) (fieldKk op)
  else if fieldTop op = 0x8 then decodeFamily8 op
  else if fieldTop op = 0x9 then whenNibbleZero op (.sneVxVy (fieldX op) (fieldY op))
  else if fieldTop op = 0xA then .ldINnn (fieldNnn op)
  else if fieldTop op = 0xB then .jpV0Nnn (fieldNnn op)
  else if fieldTop op = 0xC then .rndVxKk (fieldX op) (fieldKk op)
  else if fieldTop op = 0xD then .drwVxVyN (fieldX op) (fieldY op) (fieldN op)
  else if fieldTop op = 0xE then decodeFamilyE op
  else decodeFamilyF op

/-- Why a list of bytes holds no instruction. -/
inductive DecodeError where
  /-- fewer than the two bytes every instruction has (R90) -/
  | fewerThanTwoBytes
  deriving DecidableEq, Repr

/-- The 16-bit word of two bytes, the one at the lower address first: big-endian (R62, R90). -/
def wordOfBytes (hi lo : Byte) : Word := hi ++ lo

/-- The first instruction of a list of bytes, with the bytes after it. Total: the only refusal is a list too short. -/
def decode : List Byte → Except DecodeError (Instr × List Byte)
  | hi :: lo :: rest => .ok (decodeWord (wordOfBytes hi lo), rest)
  | [_] => .error .fewerThanTwoBytes
  | [] => .error .fewerThanTwoBytes

/-! The encoder: the formats of R92 and the rows of R96, written as the concatenation of their fields. -/

/-- Format `A`: `top`, `nnn`. -/
def formatA (top : Nibble) (nnn : Addr) : Word := top ++ nnn

/-- Format `XK`: `top`, `x`, `kk`; format `X` has the secondary opcode in the place of `kk`. -/
def formatXK (top x : Nibble) (kk : Byte) : Word := top ++ x ++ kk

/-- Format `XY`: `top`, `x`, `y`, secondary opcode; format `XYN` has `n` in its place. -/
def formatXY (top x y n : Nibble) : Word := top ++ x ++ y ++ n

/-- The word of an instruction. -/
def encode : Instr → Word
  | .cls => 0x00E0
  | .ret => 0x00EE
  | .sysNnn nnn => formatA 0x0 nnn
  | .jpNnn nnn => formatA 0x1 nnn
  | .callNnn nnn => formatA 0x2 nnn
  | .seVxKk x kk => formatXK 0x3 x kk
  | .sneVxKk x kk => formatXK 0x4 x kk
  | .seVxVy x y => formatXY 0x5 x y 0x0
  | .ldVxKk x kk => formatXK 0x6 x kk
  | .addVxKk x kk => formatXK 0x7 x kk
  | .ldVxVy x y => formatXY 0x8 x y 0x0
  | .orVxVy x y => formatXY 0x8 x y 0x1
  | .andVxVy x y => formatXY 0x8 x y 0x2
  | .xorVxVy x y => formatXY 0x8 x y 0x3
  | .addVxVy x y => formatXY 0x8 x y 0x4
  | .subVxVy x y => formatXY 0x8 x y 0x5
  | .shrVx x y => formatXY 0x8 x y 0x6
  | .subnVxVy x y => formatXY 0x8 x y 0x7
  | .shlVx x y => formatXY 0x8 x y 0xE
  | .sneVxVy x y => formatXY 0x9 x y 0x0
  | .ldINnn nnn => formatA 0xA nnn
  | .jpV0Nnn nnn => formatA 0xB nnn
  | .rndVxKk x kk => formatXK 0xC x kk
  | .drwVxVyN x y n => formatXY 0xD x y n
  | .skpVx x => formatXK 0xE x 0x9E
  | .sknpVx x => formatXK 0xE x 0xA1
  | .ldVxDt x => formatXK 0xF x 0x07
  | .ldVxK x => formatXK 0xF x 0x0A
  | .ldDtVx x => formatXK 0xF x 0x15
  | .ldStVx x => formatXK 0xF x 0x18
  | .addIVx x => formatXK 0xF x 0x1E
  | .ldFVx x => formatXK 0xF x 0x29
  | .ldBVx x => formatXK 0xF x 0x33
  | .ldMemVx x => formatXK 0xF x 0x55
  | .ldVxMem x => formatXK 0xF x 0x65
  | .unknown op => op

/-- The high byte of a word, the one at the lower address (R90). -/
def highByte (op : Word) : Byte := op.extractLsb' 8 8

/-- The low byte of a word, the one at the higher address (R90). -/
def lowByte (op : Word) : Byte := op.extractLsb' 0 8

/-- The two bytes of an instruction as memory holds them. -/
def encodeBytes (i : Instr) : List Byte := [highByte (encode i), lowByte (encode i)]

/-- The word whose bits are the low `nbits` bits of `w`, every bit above them 0. -/
def tableWord (nbits w : Nat) : Word := BitVec.ofNat 16 (w % 2 ^ nbits)

/-- The instruction the decoder reads from a word numbered as spec/opcode_table.json numbers it: the word's high
byte lies at the lower address. -/
def decodeTableWord (nbits w : Nat) : Option Instr :=
  match decode [highByte (tableWord nbits w), lowByte (tableWord nbits w)] with
  | .ok (i, _) => some i
  | .error _ => none

/-! The opcode map of R96 as data: a word belongs to a row when `op and mask = match`, first row first (R95). -/

/-- The mask and the match of one row of R96. -/
structure OpcodeRow where
  mask : Word
  pattern : Word
  deriving DecidableEq, Repr

/-- Does a word match a row. -/
def OpcodeRow.takes (r : OpcodeRow) (op : Word) : Bool := op &&& r.mask == r.pattern

/-- The 36 rows of R96, in the order in which a decoder tests them. -/
def opcodeRows : List OpcodeRow :=
  [⟨0xFFFF, 0x00E0⟩, ⟨0xFFFF, 0x00EE⟩, ⟨0xF000, 0x0000⟩, ⟨0xF000, 0x1000⟩, ⟨0xF000, 0x2000⟩, ⟨0xF000, 0x3000⟩,
   ⟨0xF000, 0x4000⟩, ⟨0xF00F, 0x5000⟩, ⟨0xF000, 0x6000⟩, ⟨0xF000, 0x7000⟩, ⟨0xF00F, 0x8000⟩, ⟨0xF00F, 0x8001⟩] ++
  [⟨0xF00F, 0x8002⟩, ⟨0xF00F, 0x8003⟩, ⟨0xF00F, 0x8004⟩, ⟨0xF00F, 0x8005⟩, ⟨0xF00F, 0x8006⟩, ⟨0xF00F, 0x8007⟩,
   ⟨0xF00F, 0x800E⟩, ⟨0xF00F, 0x9000⟩, ⟨0xF000, 0xA000⟩, ⟨0xF000, 0xB000⟩, ⟨0xF000, 0xC000⟩, ⟨0xF000, 0xD000⟩] ++
  [⟨0xF0FF, 0xE09E⟩, ⟨0xF0FF, 0xE0A1⟩, ⟨0xF0FF, 0xF007⟩, ⟨0xF0FF, 0xF00A⟩, ⟨0xF0FF, 0xF015⟩, ⟨0xF0FF, 0xF018⟩,
   ⟨0xF0FF, 0xF01E⟩, ⟨0xF0FF, 0xF029⟩, ⟨0xF0FF, 0xF033⟩, ⟨0xF0FF, 0xF055⟩, ⟨0xF0FF, 0xF065⟩, ⟨0x0000, 0x0000⟩]

/-- The position in `opcodeRows` (row number of R96 minus 1) of an instruction's row. -/
def Instr.rowIndex : Instr → Nat
  | .cls => 0
  | .ret => 1
  | .sysNnn _ => 2
  | .jpNnn _ => 3
  | .callNnn _ => 4
  | .seVxKk _ _ => 5
  | .sneVxKk _ _ => 6
  | .seVxVy _ _ => 7
  | .ldVxKk _ _ => 8
  | .addVxKk _ _ => 9
  | .ldVxVy _ _ => 10
  | .orVxVy _ _ => 11
  | .andVxVy _ _ => 12
  | .xorVxVy _ _ => 13
  | .addVxVy _ _ => 14
  | .subVxVy _ _ => 15
  | .shrVx _ _ => 16
  | .subnVxVy _ _ => 17
  | .shlVx _ _ => 18
  | .sneVxVy _ _ => 19
  | .ldINnn _ => 20
  | .jpV0Nnn _ => 21
  | .rndVxKk _ _ => 22
  | .drwVxVyN _ _ _ => 23
  | .skpVx _ => 24
  | .sknpVx _ => 25
  | .ldVxDt _ => 26
  | .ldVxK _ => 27
  | .ldDtVx _ => 28
  | .ldStVx _ => 29
  | .addIVx _ => 30
  | .ldFVx _ => 31
  | .ldBVx _ => 32
  | .ldMemVx _ => 33
  | .ldVxMem _ => 34
  | .unknown _ => 35

end Sys2Proof
end

