-- ==== Sys2Proof/Config.lean ====
section
/-! DEFINITION. What is fixed for the machine (spec 00_scope.md R8, R9) and the free values the spec leaves open. -/

namespace Sys2Proof.Config

/-- `MEM_SIZE`: addresses `0x000` to `0xFFF` exist (R8). -/
def memSize : Nat := 4096

/-- `ADDR_MAX`, the last valid memory address (R8). -/
def addrMax : Nat := 0xFFF

/-- `PROG_BASE`: where the ROM is loaded and where `pc` starts (R8). -/
def progBase : Nat := 0x200

/-- `ROM_MAX`: the largest ROM that fits (R8). -/
def romMax : Nat := 3584

/-- `GLYPH_LEN`: bytes per font glyph (R8). -/
def glyphLen : Nat := 5

/-- `STACK_DEPTH`, a parameter whose default is 16 (R9, decision D4).
DESIGN CHOICE, unsafe: the default is fixed (log entry 6). -/
def stackDepth : Nat := 16

/-- `FB_W`, framebuffer columns (R8). -/
def fbWidth : Nat := 64

/-- `FB_H`, framebuffer rows (R8). -/
def fbHeight : Nat := 32

/-- `FONT`: 80 bytes, glyphs `0` to `F` in order, 5 bytes each (10_state.md R33).
PRESUMED, unsafe: the source lists no byte of it, the spec's default table is used (log entry 5). -/
def font : List Byte :=
  [0xF0, 0x90, 0x90, 0x90, 0xF0,  0x20, 0x60, 0x20, 0x20, 0x70,
   0xF0, 0x10, 0xF0, 0x80, 0xF0,  0xF0, 0x10, 0xF0, 0x10, 0xF0] ++
  [0x90, 0x90, 0xF0, 0x10, 0x10,  0xF0, 0x80, 0xF0, 0x10, 0xF0,
   0xF0, 0x80, 0xF0, 0x90, 0xF0,  0xF0, 0x10, 0x20, 0x40, 0x40] ++
  [0xF0, 0x90, 0xF0, 0x90, 0xF0,  0xF0, 0x90, 0xF0, 0x10, 0xF0,
   0xF0, 0x90, 0xF0, 0x90, 0x90,  0xE0, 0x90, 0xE0, 0x90, 0xE0] ++
  [0xF0, 0x80, 0x80, 0x80, 0xF0,  0xE0, 0x90, 0x90, 0x90, 0xE0,
   0xF0, 0x80, 0xF0, 0x80, 0xF0,  0xF0, 0x80, 0xF0, 0x80, 0x80]

/-- The byte an address of `0x050..0xFFF` holds after reset until it is written: "unspecified: any value"
(10_state.md R40), one value for every read (93_implementation_defined.md U7).
A free value: DESIGN CHOICE, safe (log entry 2). -/
opaque unspecifiedByte : Nat → Byte

/-- The random byte of draw number `k` where the host has named none: "a free input under no law"
(10_state.md R46, 43_const_random.md R169). A free value: DESIGN CHOICE, safe (log entry 3). -/
opaque rnd : Nat → Byte

end Sys2Proof.Config
end

