-- ==== Sys2Proof/Machine/State.lean ====
section
/-! DEFINITION. The state of the machine as plain data (10_state.md R20), its reset value (R40), and the reasons a
step could stop. -/

namespace Sys2Proof.Machine

/-- The 4096-byte memory: the bytes that have been written, addresses strictly rising (see Memory.lean for the
canonical form and for what an unlisted address reads as). -/
abbrev Memory := List Host.Cell

/-- The framebuffer: 32 rows of 64 one-bit cells, so that cell `x + 64*y` is bit `x` of row `y` (10_state.md R29).
DESIGN CHOICE, safe: the flat sequence of R29 is held row by row (log entry 14). -/
abbrev Framebuffer := Vector (BitVec 64) 32

/-- The value of the fault latch (60_exceptions.md R241); `Cause.code` gives its 3-bit code. -/
inductive Cause where
  /-- code 0: no fault since reset -/
  | none
  /-- code 1: `pc > 0xFFE` at fetch -/
  | fetchAddress
  /-- code 2: last byte of a data access beyond `0xFFF` -/
  | dataAddress
  /-- code 3: a call with the stack full -/
  | stackOverflow
  /-- code 4: a return with the stack empty -/
  | stackUnderflow
  /-- code 5: a key number above 15 -/
  | keyIndex
  deriving DecidableEq, Repr

/-- The whole state (R20), and the model's own hold of the step input `rnd` (log entry 3). -/
structure State where
  /-- the general registers `V[0]` to `V[15]` (R21); `V[15]` is also the flag register (R22) -/
  V : Vector Byte 16
  /-- the address register (R23) -/
  I : Word
  /-- the program counter (R24) -/
  pc : Word
  /-- the delay timer (R25) -/
  DT : Byte
  /-- the sound timer (R26) -/
  ST : Byte
  /-- the call-stack entries (R27); those at index `sp` and above are stale -/
  stack : Vector Word Config.stackDepth
  /-- the number of entries in use, `0..STACK_DEPTH` (R27, R35) -/
  sp : Fin (Config.stackDepth + 1)
  /-- the memory (R28) -/
  mem : Memory
  /-- the framebuffer (R29) -/
  fb : Framebuffer
  /-- the key flags: bit `k` is key `k` (R30, R50) -/
  keys : BitVec 16
  /-- the fault latch (R31) -/
  fault : Cause
  /-- MODEL's own: the bytes the host has supplied for the `Cxkk` steps to come, oldest first (R46, log entry 3) -/
  rndIn : List Byte
  /-- MODEL's own: how many random bytes have been drawn (log entry 3) -/
  draws : Nat
  deriving DecidableEq, Repr

/-- Reasons for an `Outcome.fault`. There is none: every fault of the spec is the latch of R244, whose entry is a next
state (log entry 1), and every step of the spec has an outcome (40_step_cycle.md R129), so nothing raises one. -/
inductive Fault where
  deriving DecidableEq, Repr

/-- Reasons for an `Outcome.refused`. -/
inductive Refusal where
  /-- raised only by an arm of `exec` whose instruction has no meaning yet; safe (the model stops). No arm does. -/
  | notModelled (mnemonic : String)
  deriving DecidableEq, Repr

/-- The outcome of a step or of an instruction. -/
abbrev Result := Host.Outcome State Fault Refusal

/-- The machine right after reset (R40, 70_reset_and_hazards.md R275). Memory lists nothing: `0x000..0x04F` read as
the font and the rest as unspecified bytes (log entry 2). The stack entries are unspecified in the spec and 0 here:
DESIGN CHOICE, unsafe (log entry 4). `rndIn` and `draws` are the model's own: DESIGN CHOICE (log entry 3). -/
def State.reset : State where
  V := Vector.replicate 16 0
  I := 0
  pc := BitVec.ofNat 16 Config.progBase
  DT := 0
  ST := 0
  stack := Vector.replicate Config.stackDepth 0
  sp := 0
  mem := []
  fb := Vector.replicate 32 0
  keys := 0
  fault := .none
  rndIn := []
  draws := 0

end Sys2Proof.Machine
end

