-- ==== Sys2Proof/Machine/Memory.lean ====
section
/-! DEFINITION. Memory (20_memory.md): what an address reads as, writing a byte, the canonical form, and the
big-endian and multi-byte accesses built from single bytes. -/

namespace Sys2Proof.Machine

/-- What an address that memory does not list is known to hold: the font byte in `0x000..0x04F`, and no known value
elsewhere (10_state.md R40). -/
def memUnlisted (a : Nat) : Option Byte := Config.font[a]?

/-- What memory knows of the byte at an address: the byte written last, else what the address holds unlisted. -/
def memKnown : Memory → Nat → Option Byte
  | [], a => memUnlisted a
  | (b, v) :: m, a => if a = b then some v else memKnown m a

/-- `MemRead(a, 1)` (R68). A byte that nothing has written and reset leaves unspecified is the free value
`Config.unspecifiedByte a`, the same at every read (log entry 2). -/
def memRead (m : Memory) (a : Nat) : Byte := (memKnown m a).getD (Config.unspecifiedByte a)

/-- Memory without any cell for an address. -/
def memErase (m : Memory) (a : Nat) : Memory := m.filter fun c => c.1 != a

/-- Put a cell at its place in the order of addresses. -/
def memInsert (a : Nat) (v : Byte) : Memory → Memory
  | [] => [(a, v)]
  | c :: m => if a < c.1 then (a, v) :: c :: m else c :: memInsert a v m

/-- `MemWrite(a, 1, v)` (R68): the old cell goes, and the new one is listed unless its address is known to hold that
byte unlisted. -/
def memWrite (m : Memory) (a : Nat) (v : Byte) : Memory :=
  if memUnlisted a = some v then memErase m a else memInsert a v (memErase m a)

/-- The bytes at `a .. a + k - 1`, ascending (R63). -/
def memReadRun (m : Memory) (a : Nat) : Nat → List Byte
  | 0 => []
  | k + 1 => memRead m a :: memReadRun m (a + 1) k

/-- Store bytes at `a, a + 1, ...`, ascending (R63, R69). -/
def memWriteRun (m : Memory) (a : Nat) : List Byte → Memory
  | [] => m
  | v :: vs => memWriteRun (memWrite m a v) (a + 1) vs

/-- `MemRead(a, 2)`, big-endian: the byte at the lower address is the high byte (R62). -/
def memReadWord (m : Memory) (a : Nat) : Word := memRead m a ++ memRead m (a + 1)

/-- The canonical form: addresses strictly rising and all below 4096, no cell equal to what its address is known to
hold unlisted. -/
abbrev Memory.wf (m : Memory) : Prop :=
  m.Pairwise (fun c d => c.1 < d.1) ∧ ∀ c ∈ m, c.1 < Config.memSize ∧ memUnlisted c.1 ≠ some c.2

end Sys2Proof.Machine
end

