-- ==== Sys2Proof/Machine/Ops.lean ====
section
/-! DEFINITION. The named operations over the state: registers, program counter, timers, stack, framebuffer, the
random input, fetching, and taking a fault. Every instruction is written over these. -/

namespace Sys2Proof.Machine

/-! Registers. -/

/-- Read `V[x]` (10_state.md R21, 00_scope.md R12). -/
def getV (s : State) (x : Nibble) : Byte := s.V[x.toNat]'x.isLt

/-- `V[x] <- v` (R12). No register is hardwired (R21). -/
def setV (x : Nibble) (v : Byte) (s : State) : State := { s with V := s.V.set x.toNat v x.isLt }

/-- The number of the flag register `V[0xF]` (R22). -/
def flagReg : Nibble := 0xF

/-- `V[0xF] <- b` as 1 or 0 (R22). -/
def setFlag (b : Bool) (s : State) : State := setV flagReg (if b then 1 else 0) s

/-- Write a run of registers from number `i` on, ascending (47_index_memory.md R230). -/
def setVRun (V : Vector Byte 16) (i : Nat) : List Byte → Vector Byte 16
  | [] => V
  | b :: bs => setVRun (V.setIfInBounds i b) (i + 1) bs

/-- `V[0] .. V[x]`, ascending (R229). -/
def getVUpTo (s : State) (x : Nibble) : List Byte := s.V.toList.take (x.toNat + 1)

/-- Write `V[0], V[1], ...` from a list of bytes, ascending (R230). -/
def setVUpTo (bs : List Byte) (s : State) : State := { s with V := setVRun s.V 0 bs }

/-- `I <- v` (R23). -/
def setI (v : Word) (s : State) : State := { s with I := v }

/-- `DT <- v` (R25). -/
def setDT (v : Byte) (s : State) : State := { s with DT := v }

/-- `ST <- v` (R26). -/
def setST (v : Byte) (s : State) : State := { s with ST := v }

/-- Replace the memory (R28). -/
def setMem (m : Memory) (s : State) : State := { s with mem := m }

/-- Replace the framebuffer (R29). -/
def setFb (f : Framebuffer) (s : State) : State := { s with fb := f }

/-! The program counter (40_step_cycle.md R125, R126). -/

/-- `pc <- v` (R24). -/
def setPc (v : Word) (s : State) : State := { s with pc := v }

/-- `pc <- pc + 2`, the instruction after this one. -/
def advance (s : State) : State := setPc (s.pc + 2) s

/-- `pc <- pc + 4` when the condition holds, else `pc + 2` (42_skip.md R155). -/
def skipIf (c : Bool) (s : State) : State := setPc (if c then s.pc + 4 else s.pc + 2) s

/-- `pc <- zext_16(nnn)` (41_flow.md R143). -/
def jump (nnn : Addr) (s : State) : State := setPc (nnn.setWidth 16) s

/-! Taking a fault (60_exceptions.md R241, R244). -/

/-- The 3-bit code of a cause (R241). -/
def Cause.code : Cause → BitVec 3
  | .none => 0
  | .fetchAddress => 1
  | .dataAddress => 2
  | .stackOverflow => 3
  | .stackUnderflow => 4
  | .keyIndex => 5

/-- `raise F` (R244): the latch takes the cause and the step ends; nothing else changes, `pc` stays at the faulting
instruction. Nothing is saved and there is no handler. DEDUCED: a next state, not a stop (log entry 1). -/
def raise (c : Cause) (s : State) : Result := .next { s with fault := c }

/-- Is the core halted (40_step_cycle.md R120). -/
def halted (s : State) : Bool := decide (s.fault ≠ .none)

/-! Timers (R121). -/

/-- Decrement a timer unless it is 0. -/
def timerDown (t : Byte) : Byte := if t = 0 then 0 else t - 1

/-- Stage 1 of a step: both timers, each independently. -/
def tickTimers (s : State) : State := { s with DT := timerDown s.DT, ST := timerDown s.ST }

/-! Fetch (R122). -/

/-- Stage 2 of a step: the big-endian word at `pc`, or nothing when `pc > 0xFFE` (20_memory.md R65). -/
def fetchWord (s : State) : Option Word :=
  if 0xFFE < s.pc.toNat then none else some (memReadWord s.mem s.pc.toNat)

/-- Two bytes stored at the `pc` of the next fetch, which is made possible: the latch cleared (R120), a `pc` above
`0xFFE` set to `0x200` (log entry 12). Not a move of the core or of the host's ports. -/
def placeInstr (hi lo : Byte) (s : State) : State :=
  let p : Word := if 0xFFE < s.pc.toNat then BitVec.ofNat 16 Config.progBase else s.pc
  { s with mem := memWriteRun s.mem p.toNat [hi, lo], pc := p, fault := .none }

/-! The call stack (10_state.md R27). -/

/-- `stack[sp] <- v; sp <- sp + 1`, or nothing when `STACK_DEPTH` entries are in use. -/
def push (v : Word) (s : State) : Option State :=
  if h : s.sp.val < Config.stackDepth then
    some { s with stack := s.stack.set s.sp.val v h, sp := ⟨s.sp.val + 1, Nat.succ_lt_succ h⟩ }
  else none

/-- `sp <- sp - 1`, with the entry `stack[sp]` then names, or nothing when the stack is empty. The entry stays. -/
def pop (s : State) : Option (Word × State) :=
  if h : 0 < s.sp.val then
    some (s.stack[s.sp.val - 1]'(by have := s.sp.isLt; omega),
      { s with sp := ⟨s.sp.val - 1, by have := s.sp.isLt; omega⟩ })
  else none

/-! The framebuffer (45_display.md). -/

/-- `fb[i]`, `i` in `0..2047`, as `fb[x + 64*y]` (10_state.md R29). -/
def cell (f : Framebuffer) (i : Nat) : Bool := (f[i / 64]?.getD 0).getLsbD (i % 64)

/-- All cells unlit (R197). -/
def clearedFb : Framebuffer := Vector.replicate 32 0

/-- The cell Set pixel works on (R196): both coordinates wrap, each on its own. -/
def pixelIndex (px py : Nat) : Nat := px % 64 + 64 * (py % 32)

/-- Flip the cell at column `px mod 64`, row `py mod 32` (R196). -/
def togglePixel (px py : Nat) (f : Framebuffer) : Framebuffer :=
  f.set (py % 32) (f[py % 32]'(Nat.mod_lt _ (by decide)) ^^^ ((1 : BitVec 64) <<< (px % 64)))
    (Nat.mod_lt _ (by decide))

/-- Set pixel (R196): flips the cell and answers whether it was lit. -/
def setPixel (px py : Nat) (f : Framebuffer) : Framebuffer × Bool :=
  (togglePixel px py f, cell f (pixelIndex px py))

/-- One sprite bit: column `c` (0 leftmost) of a row byte is bit `7 - c` (R198).
PRESUMED, unsafe: the spec takes this bit order from general knowledge (decision D18, log entry 10). -/
def spriteBit (b : Byte) (c : Nat) : Bool := b.getLsbD (7 - c)

/-- Draw one column of a sprite row: only a bit of 1 calls Set pixel; `coll` remembers any collision (R198). -/
def drawBit (b : Byte) (px py : Nat) (acc : Framebuffer × Bool) (c : Nat) : Framebuffer × Bool :=
  if spriteBit b c then
    let hit := setPixel (px + c) py acc.1
    (hit.1, acc.2 || hit.2)
  else acc

/-- Draw a sprite row, columns 0 to 7 (R198). -/
def drawRow (b : Byte) (px py : Nat) (acc : Framebuffer × Bool) : Framebuffer × Bool :=
  [0, 1, 2, 3, 4, 5, 6, 7].foldl (drawBit b px py) acc

/-- Draw the rows of a sprite from screen row `py` down (R198). -/
def drawRows (px : Nat) : Nat → List Byte → Framebuffer × Bool → Framebuffer × Bool
  | _, [], acc => acc
  | py, b :: bs, acc => drawRows px (py + 1) bs (drawRow b px py acc)

/-! The random input (10_state.md R46). -/

/-- The random byte of this step: the oldest the host has supplied, else a free value (log entry 3). -/
def nextRnd (s : State) : Byte :=
  match s.rndIn with
  | b :: _ => b
  | [] => Config.rnd s.draws

/-- The step has used its random byte: the next draw is a fresh one. -/
def drawRnd (s : State) : State := { s with rndIn := s.rndIn.tail, draws := s.draws + 1 }

end Sys2Proof.Machine
end

