-- ==== Sys2Proof/Machine/Flags.lean ====
section
/-! DEFINITION. The flag computations of the arithmetic and shift instructions (10_state.md R22, 44_alu.md). -/

namespace Sys2Proof.Machine

/-- The 9-bit sum of two bytes (R180). -/
def sum9 (a b : Byte) : BitVec 9 := a.setWidth 9 + b.setWidth 9

/-- `s[7:0]`, the low 8 bits of the sum (R180). -/
def sumLow (a b : Byte) : Byte := (sum9 a b).extractLsb' 0 8

/-- `s[8]`, the carry out of bit 7 (R180). -/
def carryOut (a b : Byte) : Bool := (sum9 a b).getLsbD 8

/-- The flag of a subtraction: minuend strictly greater, unsigned (R181, R183). -/
def strictlyGreater (a b : Byte) : Bool := decide (b.toNat < a.toNat)

/-- The bit a right shift by one shifts out (R182). -/
def lowBit (a : Byte) : Bool := a.getLsbD 0

/-- The bit a left shift by one shifts out (R184). -/
def highBit (a : Byte) : Bool := a.getLsbD 7

end Sys2Proof.Machine
end

