-- ==== Sys2Proof/Machine/Alu.lean ====
section
/-! DEFINITION. The meanings of the register-to-register operations, family 8 (44_alu.md). Statements run in the order of
the source's Effect column, each reading the registers as the earlier ones left them (R175, decision D16): DESIGN
CHOICE of the spec, unsafe only where `x` or `y` is `F` (log entry 9). -/

namespace Sys2Proof.Machine

/-- `8xy0`, `LD Vx, Vy` (R176). -/
def execLdVxVy (x y : Nibble) (s : State) : Result := .next (advance (setV x (getV s y) s))

/-- `8xy1`, `OR Vx, Vy` (R177). -/
def execOrVxVy (x y : Nibble) (s : State) : Result := .next (advance (setV x (getV s x ||| getV s y) s))

/-- `8xy2`, `AND Vx, Vy` (R178). -/
def execAndVxVy (x y : Nibble) (s : State) : Result := .next (advance (setV x (getV s x &&& getV s y) s))

/-- `8xy3`, `XOR Vx, Vy` (R179). -/
def execXorVxVy (x y : Nibble) (s : State) : Result := .next (advance (setV x (getV s x ^^^ getV s y) s))

/-- `8xy4`, `ADD Vx, Vy` (R180): the result first, the flag last. -/
def execAddVxVy (x y : Nibble) (s : State) : Result :=
  .next (advance (setFlag (carryOut (getV s x) (getV s y)) (setV x (sumLow (getV s x) (getV s y)) s)))

/-- `8xy5`, `SUB Vx, Vy` (R181): the flag first, then the operands read again. -/
def execSubVxVy (x y : Nibble) (s : State) : Result :=
  let t := setFlag (strictlyGreater (getV s x) (getV s y)) s
  .next (advance (setV x (getV t x - getV t y) t))

/-- `8xy6`, `SHR Vx` (R182): the flag first, then the shift in place; `y` is ignored. -/
def execShrVx (x _y : Nibble) (s : State) : Result :=
  let t := setFlag (lowBit (getV s x)) s
  .next (advance (setV x (getV t x >>> 1) t))

/-- `8xy7`, `SUBN Vx, Vy` (R183): as `8xy5` with the operands exchanged. -/
def execSubnVxVy (x y : Nibble) (s : State) : Result :=
  let t := setFlag (strictlyGreater (getV s y) (getV s x)) s
  .next (advance (setV x (getV t y - getV t x) t))

/-- `8xyE`, `SHL Vx` (R184): the flag first, then the shift in place; `y` is ignored. -/
def execShlVx (x _y : Nibble) (s : State) : Result :=
  let t := setFlag (highBit (getV s x)) s
  .next (advance (setV x (getV t x <<< 1) t))

end Sys2Proof.Machine
end

