-- ==== Sys2Proof/Machine/ConstRandom.lean ====
section
/-! DEFINITION. The meanings of the constants, the immediate add and the random byte (43_const_random.md). -/

namespace Sys2Proof.Machine

/-- `6xkk`, `LD Vx, kk` (R166). -/
def execLdVxKk (x : Nibble) (kk : Byte) (s : State) : Result := .next (advance (setV x kk s))

/-- `7xkk`, `ADD Vx, kk` (R167): modulo 256, no flag. -/
def execAddVxKk (x : Nibble) (kk : Byte) (s : State) : Result := .next (advance (setV x (getV s x + kk) s))

/-- `Annn`, `LD I, nnn` (R168). -/
def execLdINnn (nnn : Addr) (s : State) : Result := .next (advance (setI (nnn.setWidth 16) s))

/-- `Cxkk`, `RND Vx, kk` (R169): the step's random byte, masked. -/
def execRndVxKk (x : Nibble) (kk : Byte) (s : State) : Result :=
  .next (advance (setV x (nextRnd s &&& kk) (drawRnd s)))

end Sys2Proof.Machine
end

