-- ==== Sys2Proof/Machine/Operands.lean ====
section
/-! DEFINITION. The operand forms beyond a register or an immediate (30_encoding.md R93): the bytes at `I`, a key
number, the key wait, a font glyph, decimal digits. -/

namespace Sys2Proof.Machine

/-- The range check of a data access of `k` bytes from `I`, formed without wrapping (20_memory.md R66): true when it
faults. -/
def dataOutOfRange (s : State) (k : Nat) : Bool := decide (0 < k ∧ Config.addrMax < s.I.toNat + k - 1)

/-- Is the value of a key operand no key number (46_keys_timers.md R211): the whole 8 bits are the index. -/
def keyOutOfRange (k : Byte) : Bool := decide (15 < k.toNat)

/-- `keys[k]` (10_state.md R30). -/
def keySet (s : State) (k : Nat) : Bool := s.keys.getLsbD k

/-- The smallest number of a set key, if any is set (R214). -/
def lowestKey (s : State) : Option Nat := (List.range 16).find? (keySet s)

/-- `5 * zext_16(v)`, the address of a glyph (47_index_memory.md R227). -/
def glyphAddress (v : Byte) : Word := BitVec.ofNat 16 (Config.glyphLen * v.toNat)

/-- The three decimal digits of a byte: hundreds, tens, ones (R228). -/
def decimalDigits (v : Byte) : List Byte :=
  [BitVec.ofNat 8 (v.toNat / 100), BitVec.ofNat 8 (v.toNat / 10 % 10), BitVec.ofNat 8 (v.toNat % 10)]

end Sys2Proof.Machine
end

