-- ==== Sys2Proof/Machine/Display.lean ====
section
/-! DEFINITION. The meanings of the framebuffer clear and the sprite draw (45_display.md). -/

namespace Sys2Proof.Machine

/-- `00E0`, `CLS` (R197). -/
def execCls (s : State) : Result := .next (advance (setFb clearedFb s))

/-- `Dxyn`, `DRW Vx, Vy, n` (R198): the operands are bound first, the whole range is checked, the flag is written
last and always (decision D17, log entry 9). -/
def execDrwVxVyN (x y n : Nibble) (s : State) : Result :=
  if dataOutOfRange s n.toNat then raise .dataAddress s
  else
    let drawn := drawRows (getV s x).toNat (getV s y).toNat (memReadRun s.mem s.I.toNat n.toNat) (s.fb, false)
    .next (advance (setFlag drawn.2 (setFb drawn.1 s)))

end Sys2Proof.Machine
end

