-- ==== Sys2Proof/Machine/Flow.lean ====
section
/-! DEFINITION. The meanings of the jumps, call and return (41_flow.md). -/

namespace Sys2Proof.Machine

/-- `00EE`, `RET` (R141): pop into `pc`, with no extra 2; an empty stack faults. -/
def execRet (s : State) : Result :=
  match pop s with
  | none => raise .stackUnderflow s
  | some (v, t) => .next (setPc v t)

/-- `0nnn`, `SYS nnn` (R142): a plain jump, nothing is pushed. -/
def execSysNnn (nnn : Addr) (s : State) : Result := .next (jump nnn s)

/-- `1nnn`, `JP nnn` (R143). -/
def execJpNnn (nnn : Addr) (s : State) : Result := .next (jump nnn s)

/-- `2nnn`, `CALL nnn` (R144): push `pc + 2` and jump; a full stack faults. -/
def execCallNnn (nnn : Addr) (s : State) : Result :=
  match push (s.pc + 2) s with
  | none => raise .stackOverflow s
  | some t => .next (jump nnn t)

/-- `Bnnn`, `JP V0, nnn` (R145): the sum is kept in 16 bits, not reduced to 12. -/
def execJpV0Nnn (nnn : Addr) (s : State) : Result :=
  .next (setPc ((getV s 0).setWidth 16 + nnn.setWidth 16) s)

end Sys2Proof.Machine
end

