-- ==== Sys2Proof/Machine/IndexMemory.lean ====
section
/-! DEFINITION. The meanings of the address-register arithmetic, the decimal store, and the register dump and load
(47_index_memory.md). `I` is never changed by an access (R225). -/

namespace Sys2Proof.Machine

/-- `Fx1E`, `ADD I, Vx` (R226): modulo 65536, no flag. -/
def execAddIVx (x : Nibble) (s : State) : Result := .next (advance (setI (s.I + (getV s x).setWidth 16) s))

/-- `Fx29`, `LD F, Vx` (R227). -/
def execLdFVx (x : Nibble) (s : State) : Result := .next (advance (setI (glyphAddress (getV s x)) s))

/-- `Fx33`, `LD B, Vx` (R228): hundreds, tens, ones at `I`, `I + 1`, `I + 2`. -/
def execLdBVx (x : Nibble) (s : State) : Result :=
  if dataOutOfRange s 3 then raise .dataAddress s
  else .next (advance (setMem (memWriteRun s.mem s.I.toNat (decimalDigits (getV s x))) s))

/-- `Fx55`, `LD [I], Vx` (R229): `V[0] .. V[x]` to `I .. I + x`. -/
def execLdMemVx (x : Nibble) (s : State) : Result :=
  if dataOutOfRange s (x.toNat + 1) then raise .dataAddress s
  else .next (advance (setMem (memWriteRun s.mem s.I.toNat (getVUpTo s x)) s))

/-- `Fx65`, `LD Vx, [I]` (R230): `I .. I + x` to `V[0] .. V[x]`. -/
def execLdVxMem (x : Nibble) (s : State) : Result :=
  if dataOutOfRange s (x.toNat + 1) then raise .dataAddress s
  else .next (advance (setVUpTo (memReadRun s.mem s.I.toNat (x.toNat + 1)) s))

end Sys2Proof.Machine
end

