-- ==== Sys2Proof/Machine/KeysTimers.lean ====
section
/-! DEFINITION. The meanings of the key skips, the key wait and the timer accesses (46_keys_timers.md). -/

namespace Sys2Proof.Machine

/-- `Ex9E`, `SKP Vx` (R211). -/
def execSkpVx (x : Nibble) (s : State) : Result :=
  if keyOutOfRange (getV s x) then raise .keyIndex s
  else .next (skipIf (keySet s (getV s x).toNat) s)

/-- `ExA1`, `SKNP Vx` (R212). -/
def execSknpVx (x : Nibble) (s : State) : Result :=
  if keyOutOfRange (getV s x) then raise .keyIndex s
  else .next (skipIf (!keySet s (getV s x).toNat) s)

/-- `Fx07`, `LD Vx, DT` (R213): the timer as this step's decrement left it. -/
def execLdVxDt (x : Nibble) (s : State) : Result := .next (advance (setV x s.DT s))

/-- `Fx0A`, `LD Vx, K` (R214): the lowest set key, else `pc` unchanged, so that the next step runs it again. -/
def execLdVxK (x : Nibble) (s : State) : Result :=
  match lowestKey s with
  | some k => .next (advance (setV x (BitVec.ofNat 8 k) s))
  | none => .next s

/-- `Fx15`, `LD DT, Vx` (R215). -/
def execLdDtVx (x : Nibble) (s : State) : Result := .next (advance (setDT (getV s x) s))

/-- `Fx18`, `LD ST, Vx` (R216). -/
def execLdStVx (x : Nibble) (s : State) : Result := .next (advance (setST (getV s x) s))

end Sys2Proof.Machine
end

