-- ==== Sys2Proof/Machine/Skip.lean ====
section
/-! DEFINITION. The meanings of the conditional skips on registers (42_skip.md). -/

namespace Sys2Proof.Machine

/-- `3xkk`, `SE Vx, kk` (R156). -/
def execSeVxKk (x : Nibble) (kk : Byte) (s : State) : Result := .next (skipIf (getV s x == kk) s)

/-- `4xkk`, `SNE Vx, kk` (R157). -/
def execSneVxKk (x : Nibble) (kk : Byte) (s : State) : Result := .next (skipIf (getV s x != kk) s)

/-- `5xy0`, `SE Vx, Vy` (R158). -/
def execSeVxVy (x y : Nibble) (s : State) : Result := .next (skipIf (getV s x == getV s y) s)

/-- `9xy0`, `SNE Vx, Vy` (R159). -/
def execSneVxVy (x y : Nibble) (s : State) : Result := .next (skipIf (getV s x != getV s y) s)

end Sys2Proof.Machine
end

