-- ==== Sys2Proof/Machine/Unknown.lean ====
section
/-! DEFINITION. The meaning of the unknown words (40_step_cycle.md R127), and the diagnostic of an instruction (10_state.md R47). -/

namespace Sys2Proof.Machine

/-- `UNKNOWN` (R127): no operation, `pc + 2`. The word goes out on `diag` (`instrDiag`) and into no state. -/
def execUnknown (_op : Word) (s : State) : Result := .next (advance s)

/-- The result of the `step` port (R47). -/
inductive Diag where
  /-- no diagnostic -/
  | none
  /-- the step ran an unknown word as a no-operation -/
  | invalidOpcode (op : Word)
  deriving DecidableEq, Repr

end Sys2Proof.Machine
end

