-- ==== Sys2Proof/Machine/Step.lean ====
section
/-! DEFINITION. The step function (40_step_cycle.md R128) and the host's placing of one instruction at the fetch. -/

namespace Sys2Proof.Machine

/-- One step (R128): halted check, timers, fetch, decode, execute. The instruction sets `pc` itself (R125). -/
def step (s : State) : Host.Outcome State Fault Refusal :=
  if halted s then .next s
  else
    match fetchWord (tickTimers s) with
    | none => raise .fetchAddress (tickTimers s)
    | some op => exec (decodeWord op) (tickTimers s)

/-- `s` with one instruction stored where the next step fetches it. The fetch needs the latch clear (R120) and `pc` at
most `0xFFE` (R122): a halted latch is cleared, and a `pc` that cannot be fetched is set to `0x200` (log entry 12). -/
def State.withFetchWord (s : State) (nbits w : Nat) : State :=
  placeInstr (highByte (tableWord nbits w)) (lowByte (tableWord nbits w)) s

end Sys2Proof.Machine
end

