-- ==== Sys2Proof/Machine/Ports.lean ====
section
/-! DEFINITION. The host's ports (10_state.md R44 to R52) and the legal order of their use (R52,
70_reset_and_hazards.md R281 to R287). Nothing here is part of a step of the core. -/

namespace Sys2Proof.Machine

/-- `reset` (R44, R275): every piece of state at its reset value, whatever the state was; the only way out of a fault. -/
def resetPort (_s : State) : State := State.reset

/-- Why the load port rejects a ROM (60_exceptions.md R252). -/
inductive LoadError where
  /-- more than 3584 bytes: nothing is written (R282, decision D20) -/
  | tooLong
  deriving DecidableEq, Repr

/-- `load(bytes)` (R45, R282): the bytes go verbatim to `0x200` on, or nothing is written. -/
def loadRom (bytes : List Byte) (s : State) : Except LoadError State :=
  if Config.romMax < bytes.length then .error .tooLong
  else .ok (setMem (memWriteRun s.mem Config.progBase bytes) s)

/-- `keys_write(k)` (R50): all 16 flags at once, bit `i` for key `i`. -/
def keysWrite (k : BitVec 16) (s : State) : State := { s with keys := k }

/-- The host supplies the random byte of the coming step (R46, R286). -/
def supplyRnd (b : Byte) (s : State) : State := { s with rndIn := [b] }

/-- A byte the step did not use is gone after it (10_state.md R32: `rnd` is no state). -/
def dropRnd (s : State) : State := { s with rndIn := [] }

/-- `step(rnd)` (R46): one step with the random byte the host names. -/
def stepWith (b : Byte) (s : State) : Result :=
  match step (supplyRnd b s) with
  | .next t => .next (dropRnd t)
  | .fault r => .fault r
  | .refused r => .refused r

/-- The diagnostic of an instruction that runs (40_step_cycle.md R127, R128). -/
def instrDiag (i : Instr) : Diag :=
  match i with
  | .unknown op => .invalidOpcode op
  | _ => .none

/-- The `diag` result of a step from `s` (R47): `none` when the core is halted (R120) or the fetch faults (R128). An
output, recorded in no state (log entry 7). -/
def stepDiag (s : State) : Diag :=
  if halted s then .none
  else
    match fetchWord (tickTimers s) with
    | none => .none
    | some op => instrDiag (decodeWord op)

/-- `fb_read` (R48, R285): the 2048 cells in index order `x + 64*y`. -/
def fbRead (s : State) : List Bool := (List.range 2048).map (cell s.fb)

/-- `st_out` (R49). -/
def stOut (s : State) : Byte := s.ST

/-- `fault_out` (R49): the 3-bit cause code. -/
def faultOut (s : State) : BitVec 3 := s.fault.code

/-! The order of port use. -/

/-- The core with what the host's duties depend on, since the last reset: has a ROM been loaded, has any port but
`reset` and `load` been used. The two flags are the host's bookkeeping and no state of the core (log entry 13). -/
structure System where
  core : State
  loaded : Bool
  used : Bool
  deriving DecidableEq, Repr

/-- The host's moves (R281). -/
inductive Move where
  | reset
  | load (bytes : List Byte)
  | keysWrite (k : BitVec 16)
  | step (rnd : Byte)
  | fbRead
  | stOut
  | faultOut
  deriving DecidableEq, Repr

/-- What a port gives back. -/
inductive Reply where
  | done
  | loadError
  | diag (d : Diag)
  | picture (cells : List Bool)
  | sound (v : Byte)
  | cause (code : BitVec 3)
  deriving DecidableEq, Repr

/-- The load move: legal only between reset and the first use of another port, the first step among them, and at most
once (R45, R52, decision D23). A rejected load writes nothing and is not counted as the one load (log entry 13). -/
def moveLoad (bytes : List Byte) (w : System) : Option (Reply × System) :=
  if w.loaded || w.used then none
  else
    match loadRom bytes w.core with
    | .ok t => some (.done, { w with core := t, loaded := true })
    | .error _ => some (.loadError, w)

/-- A port of the third phase, which follows the load (R52, R281), has been used and left the core at `s`. -/
def portUsed (s : State) (w : System) : System := { w with core := s, used := true }

/-- The step move (R46, R47). -/
def moveStep (b : Byte) (w : System) : Option (Reply × System) :=
  match stepWith b w.core with
  | .next t => some (.diag (stepDiag w.core), portUsed t w)
  | .fault _ => none
  | .refused _ => none

/-- One move of the host; `none` where the host has no such move (R287). Moves never overlap: each is whole before the
next (R52). -/
def hostMove (m : Move) (w : System) : Option (Reply × System) :=
  match m with
  | .reset => some (.done, { core := resetPort w.core, loaded := false, used := false })
  | .load bytes => moveLoad bytes w
  | .keysWrite k => some (.done, portUsed (Sys2Proof.Machine.keysWrite k w.core) w)
  | .step b => moveStep b w
  | .fbRead => some (.picture (Sys2Proof.Machine.fbRead w.core), portUsed w.core w)
  | .stOut => some (.sound (Sys2Proof.Machine.stOut w.core), portUsed w.core w)
  | .faultOut => some (.cause (Sys2Proof.Machine.faultOut w.core), portUsed w.core w)

end Sys2Proof.Machine
end

