-- ==== Sys2Proof/Safety.lean ====
section
/-! DEFINITION. What counts as a safe run, the invariant of the machine, and the terms in which statements say what a
step changes and what it leaves unchanged. -/

namespace Sys2Proof.Machine

/-- A state of a successful run: no fault has occurred (10_state.md R31; 92_eei_decisions.md D7: "a faulted run is
never a successful run"). -/
def Safe (s : State) : Prop := s.fault = .none

/-- The idle state (70_reset_and_hazards.md R294): no fault, and the word at `pc` is a jump to `pc`. -/
def idle (s : State) : Bool :=
  !halted s && decide (s.pc.toNat < Config.memSize) && fetchWord s == some (formatA 0x1 (s.pc.setWidth 12))

/-- The entries in use are return addresses: only `pc + 2` of a fetched call is ever pushed, so `2..0x1000`
(10_state.md R35). -/
def stackOk (s : State) : Prop :=
  ∀ i : Fin Config.stackDepth, i.val < s.sp.val → 2 ≤ s.stack[i].toNat ∧ s.stack[i].toNat ≤ 0x1000

/-- The invariant: memory in canonical form within the 4096 bytes, `pc` at most `0x10FE` (R24), return addresses in
range (R35). -/
def Inv (s : State) : Prop := s.mem.wf ∧ s.pc.toNat ≤ 0x10FE ∧ stackOk s

/-- A piece of the state, as 10_state.md R20 lists them; `rnd` is the model's hold of the step input. -/
inductive Part where
  | V (r : Nibble)
  | I
  | pc
  | DT
  | ST
  | stack (i : Fin Config.stackDepth)
  | sp
  | mem (a : Nat)
  | cell (i : Nat)
  | keys
  | fault
  | rnd
  deriving DecidableEq, Repr

/-- Two states hold the same in one piece; memory is compared through the read of one byte. -/
def sameAt (s t : State) : Part → Prop
  | .V r => getV t r = getV s r
  | .I => t.I = s.I
  | .pc => t.pc = s.pc
  | .DT => t.DT = s.DT
  | .ST => t.ST = s.ST
  | .stack i => t.stack[i] = s.stack[i]
  | .sp => t.sp = s.sp
  | .mem a => memRead t.mem a = memRead s.mem a
  | .cell i => cell t.fb i = cell s.fb i
  | .keys => t.keys = s.keys
  | .fault => t.fault = s.fault
  | .rnd => t.rndIn = s.rndIn ∧ t.draws = s.draws

/-- The frame: every piece outside `w` is as it was. -/
def ChangesOnly (w : Part → Prop) (s t : State) : Prop := ∀ p, ¬ w p → sameAt s t p

/-- A fault was taken and nothing else happened (60_exceptions.md R243, R244). -/
def Faults (c : Cause) (s : State) (o : Result) : Prop := o = .next { s with fault := c }

/-- Cell `i` is under a sprite bit of 1 when an `n`-row sprite at `s.I` is drawn at column `vx`, row `vy`
(45_display.md R196, R198), written out from the spec and not through the operations that draw: column `c` of a row is bit
`7 - c` of its byte (decision D18, log entry 10), and both coordinates wrap. -/
def spriteCovers (s : State) (vx vy n i : Nat) : Prop :=
  ∃ r c : Nat, r < n ∧ c < 8 ∧ i = (vx + c) % 64 + 64 * ((vy + r) % 32) ∧
    (memRead s.mem (s.I.toNat + r)).getLsbD (7 - c) = true

/-- Which instruction writes what when it does not fault (10_state.md R36). -/
def writes (i : Instr) (s : State) (p : Part) : Prop :=
  match i with
  | .cls => p = .pc ∨ ∃ k, p = .cell k
  | .ret => p = .pc ∨ p = .sp
  | .sysNnn _ | .jpNnn _ | .jpV0Nnn _ => p = .pc
  | .callNnn _ => p = .pc ∨ p = .sp ∨ ∃ k : Fin Config.stackDepth, k.val = s.sp.val ∧ p = .stack k
  | .seVxKk _ _ | .sneVxKk _ _ | .seVxVy _ _ | .sneVxVy _ _ => p = .pc
  | .ldVxKk x _ | .addVxKk x _ => p = .pc ∨ p = .V x
  | .ldVxVy x _ | .orVxVy x _ | .andVxVy x _ | .xorVxVy x _ => p = .pc ∨ p = .V x
  | .addVxVy x _ | .subVxVy x _ | .shrVx x _ | .subnVxVy x _ | .shlVx x _ => p = .pc ∨ p = .V x ∨ p = .V flagReg
  | .ldINnn _ | .addIVx _ | .ldFVx _ => p = .pc ∨ p = .I
  | .rndVxKk x _ => p = .pc ∨ p = .V x ∨ p = .rnd
  | .drwVxVyN x y n =>
    p = .pc ∨ p = .V flagReg ∨
      ∃ k, spriteCovers s (getV s x).toNat (getV s y).toNat n.toNat k ∧ p = .cell k
  | .skpVx _ | .sknpVx _ => p = .pc
  | .ldVxDt x => p = .pc ∨ p = .V x
  | .ldVxK x => lowestKey s ≠ none ∧ (p = .pc ∨ p = .V x)
  | .ldDtVx _ => p = .pc ∨ p = .DT
  | .ldStVx _ => p = .pc ∨ p = .ST
  | .ldBVx _ => p = .pc ∨ ∃ a, s.I.toNat ≤ a ∧ a ≤ s.I.toNat + 2 ∧ p = .mem a
  | .ldMemVx x => p = .pc ∨ ∃ a, s.I.toNat ≤ a ∧ a ≤ s.I.toNat + x.toNat ∧ p = .mem a
  | .ldVxMem x => p = .pc ∨ ∃ r : Nibble, r.toNat ≤ x.toNat ∧ p = .V r
  | .unknown _ => p = .pc

/-- The value of `pc` after an instruction that does not fault: the table of 40_step_cycle.md R126. -/
def netPc (i : Instr) (s : State) : Word :=
  match i with
  | .ret => s.stack[s.sp.val - 1]?.getD 0
  | .sysNnn nnn | .jpNnn nnn | .callNnn nnn => nnn.setWidth 16
  | .jpV0Nnn nnn => (getV s 0).setWidth 16 + nnn.setWidth 16
  | .seVxKk x kk => if getV s x = kk then s.pc + 4 else s.pc + 2
  | .sneVxKk x kk => if getV s x ≠ kk then s.pc + 4 else s.pc + 2
  | .seVxVy x y => if getV s x = getV s y then s.pc + 4 else s.pc + 2
  | .sneVxVy x y => if getV s x ≠ getV s y then s.pc + 4 else s.pc + 2
  | .skpVx x => if s.keys.getLsbD (getV s x).toNat = true then s.pc + 4 else s.pc + 2
  | .sknpVx x => if s.keys.getLsbD (getV s x).toNat = false then s.pc + 4 else s.pc + 2
  | .ldVxK _ => if s.keys ≠ 0 then s.pc + 2 else s.pc
  | .cls | .ldVxKk _ _ | .addVxKk _ _ | .ldVxVy _ _ | .orVxVy _ _ | .andVxVy _ _ | .xorVxVy _ _ | .addVxVy _ _
  | .subVxVy _ _ | .shrVx _ _ | .subnVxVy _ _ | .shlVx _ _ | .ldINnn _ | .rndVxKk _ _ | .drwVxVyN _ _ _
  | .ldVxDt _ | .ldDtVx _ | .ldStVx _ | .addIVx _ | .ldFVx _ | .ldBVx _ | .ldMemVx _ | .ldVxMem _
  | .unknown _ => s.pc + 2

/-- The fault an instruction raises after a successful fetch, if any (60_exceptions.md R241, R242). -/
def faultOf (i : Instr) (s : State) : Option Cause :=
  match i with
  | .drwVxVyN _ _ n => if 0 < n.toNat ∧ 0xFFF < s.I.toNat + n.toNat - 1 then some .dataAddress else none
  | .ldBVx _ => if 0xFFF < s.I.toNat + 2 then some .dataAddress else none
  | .ldMemVx x | .ldVxMem x => if 0xFFF < s.I.toNat + x.toNat then some .dataAddress else none
  | .callNnn _ => if s.sp.val = 16 then some .stackOverflow else none
  | .ret => if s.sp.val = 0 then some .stackUnderflow else none
  | .skpVx x | .sknpVx x => if 15 < (getV s x).toNat then some .keyIndex else none
  | .cls | .sysNnn _ | .jpNnn _ | .seVxKk _ _ | .sneVxKk _ _ | .seVxVy _ _ | .ldVxKk _ _ | .addVxKk _ _
  | .ldVxVy _ _ | .orVxVy _ _ | .andVxVy _ _ | .xorVxVy _ _ | .addVxVy _ _ | .subVxVy _ _ | .shrVx _ _
  | .subnVxVy _ _ | .shlVx _ _ | .sneVxVy _ _ | .ldINnn _ | .jpV0Nnn _ | .rndVxKk _ _ | .ldVxDt _ | .ldVxK _
  | .ldDtVx _ | .ldStVx _ | .addIVx _ | .ldFVx _ | .unknown _ => none

end Sys2Proof.Machine
end

