-- ==== Sys2Proof/Certificates/Slice0/Obligations.lean ====
section
/-! DEFINITION. The statements for the provers, from the numbered rules of spec/. A docstring names the rule, or, where
a clause rests on a decision of the spec or of the model, the decision and the log entry.
`ChangesOnly w s t` is the frame: every piece of state outside `w` (each register, special register, stack entry, byte
of memory, framebuffer cell, key flags, latch) is in `t` as it was in `s`. -/

open Sys2Proof Sys2Proof.Machine

/-! Reset and the invariant. -/

/-- Reset (10_state.md R40, 70_reset_and_hazards.md R275) from any state, halted or not. The values of `pc`, the
framebuffer, the stack count, the keys and the latch are the spec's decisions D1, D14, D15, D7; the font bytes are its
default table (D19, log entry 5). Nothing is said of the bytes `0x050..0xFFF` (log entry 2) or of stale stack entries
(log entry 4). -/
def Obligations.ResetState : Prop :=
  ∀ s : State,
    (∀ r, getV (resetPort s) r = 0) ∧ (resetPort s).I = 0 ∧ (resetPort s).DT = 0 ∧ (resetPort s).ST = 0 ∧
    (resetPort s).pc = 0x200 ∧ (resetPort s).sp.val = 0 ∧
    (∀ a b, Config.font[a]? = some b → memRead (resetPort s).mem a = b) ∧
    (∀ i, cell (resetPort s).fb i = false) ∧ (∀ k, keySet (resetPort s) k = false) ∧ faultOut (resetPort s) = 0

/-- The state after reset meets the invariant that every step keeps. -/
def Obligations.ResetMeetsInvariant : Prop := Inv State.reset

/-- Every step keeps the invariant: memory in canonical form within `0x000..0xFFF`, `pc` at most `0x10FE` (R24), every
return address in use within `2..0x1000` (R35). Those bounds are inferences of the spec; the canonical form is the
model's (log entry 2). -/
def Obligations.StepKeepsInvariant : Prop :=
  ∀ s t : State, Inv s → step s = .next t → Inv t

/-! Encoding. -/

/-- R91: the field cut, as numbers. -/
def Obligations.FieldCut : Prop :=
  ∀ op : Word,
    (fieldTop op).toNat = op.toNat / 4096 ∧ (fieldNnn op).toNat = op.toNat % 4096 ∧
    (fieldX op).toNat = op.toNat / 256 % 16 ∧ (fieldY op).toNat = op.toNat / 16 % 16 ∧
    (fieldN op).toNat = op.toNat % 16 ∧ (fieldKk op).toNat = op.toNat % 256

/-- Decoding the encoding of any well-formed instruction gives it back, as a word and as two bytes. -/
def Obligations.DecodeEncode : Prop :=
  ∀ i : Instr, i.wellFormed = true → decodeWord (encode i) = i ∧ decode (encodeBytes i) = .ok (i, [])

/-- Every word decodes to a well-formed instruction whose encoding is that word: no bit is dropped. -/
def Obligations.EncodeDecode : Prop :=
  ∀ op : Word, (decodeWord op).wellFormed = true ∧ encode (decodeWord op) = op

/-- The decoder takes the first row of the opcode map whose mask and match take the word. The order of the rows is an
inference the spec marks (R95). -/
def Obligations.DecodeTakesFirstRow : Prop :=
  ∀ op : Word, opcodeRows.findIdx (fun r => r.takes op) = (decodeWord op).rowIndex

/-- R99: family `0`, every word `0x0000` to `0x0FFF`: CLS, RET, and all others a plain jump to the word's own value, at
which nothing but `pc` changes. -/
def Obligations.FamilyZero : Prop :=
  ∀ op : Word, op.toNat < 0x1000 →
    (op = 0x00E0 → decodeWord op = .cls) ∧ (op = 0x00EE → decodeWord op = .ret) ∧
    (op ≠ 0x00E0 → op ≠ 0x00EE → ∃ nnn, decodeWord op = .sysNnn nnn ∧
      ∀ s, ∃ t, exec (decodeWord op) s = .next t ∧ t.pc = op ∧ ChangesOnly (fun p => p = .pc) s t)

/-- The unknown words are exactly those the table of R98 lists; families `5` and `9` by the spec's decision D24. -/
def Obligations.UnknownWords : Prop :=
  ∀ op : Word, decodeWord op = .unknown op ↔
    (fieldTop op = 0x5 ∧ fieldN op ≠ 0) ∨ (fieldTop op = 0x9 ∧ fieldN op ≠ 0) ∨
    (fieldTop op = 0x8 ∧ (8 ≤ (fieldN op).toNat ∧ fieldN op ≠ 0xE)) ∨
    (fieldTop op = 0xE ∧ fieldKk op ≠ 0x9E ∧ fieldKk op ≠ 0xA1) ∨
    (fieldTop op = 0xF ∧ fieldKk op ∉ ([0x07, 0x0A, 0x15, 0x18, 0x1E, 0x29, 0x33, 0x55, 0x65] : List Byte))

/-- Words written out from the encodings of R96 and R101 decode to the instructions they stand for. -/
def Obligations.DecodeSamples : Prop :=
  decodeWord 0x6A9D = .ldVxKk 0xA 0x9D ∧ decodeWord 0xD012 = .drwVxVyN 0 1 2 ∧ decodeWord 0x8236 = .shrVx 2 3 ∧
  decodeWord 0xF265 = .ldVxMem 2 ∧ decodeWord 0x00EE = .ret ∧ decodeWord 0x00EF = .sysNnn 0x0EF ∧
  decodeWord 0x5121 = .unknown 0x5121 ∧ decodeWord 0xE19F = .unknown 0xE19F ∧ decodeWord 0x8ABF = .unknown 0x8ABF

/-! The step. -/

/-- R62: the fetch is big-endian, the byte at the lower address gives bits 15 to 8. -/
def Obligations.FetchBigEndian : Prop :=
  ∀ s : State, s.pc.toNat ≤ 0xFFE →
    ∃ op, fetchWord s = some op ∧ op.toNat = (memRead s.mem s.pc.toNat).toNat * 256 + (memRead s.mem (s.pc.toNat + 1)).toNat

/-- A step runs the decoded instruction: when the core is not halted, `pc` is at most `0xFFE`, and the bytes at `pc`
decode to `i`, the step is `exec` of `i` at the state whose timers have been decremented unless 0, and nothing else
(40_step_cycle.md R128; the halted check and the bound are decisions D7, D3). -/
def Obligations.StepRunsDecoded : Prop :=
  ∀ (s : State) (i : Instr) (rest : List Byte), s.fault = .none → s.pc.toNat ≤ 0xFFE →
    decode [memRead s.mem s.pc.toNat, memRead s.mem (s.pc.toNat + 1)] = .ok (i, rest) →
    step s = exec i { s with DT := if s.DT = 0 then 0 else s.DT - 1, ST := if s.ST = 0 then 0 else s.ST - 1 }

/-- The halted core (R120, R245; decision D7): a step is the identity, and its `diag` is `none`. -/
def Obligations.HaltedStep : Prop :=
  ∀ s : State, s.fault ≠ .none → step s = .next s ∧ stepDiag s = .none

/-- A fetch outside memory (R122, R246; decision D3): the latch takes `FETCH_ADDRESS`, the timers keep their decrement,
nothing else changes, and the step's `diag` is `none` (R128, R244). -/
def Obligations.FetchFault : Prop :=
  ∀ s : State, s.fault = .none → 0xFFE < s.pc.toNat →
    ∃ t, step s = .next t ∧ faultOut t = 1 ∧ t.DT.toNat = s.DT.toNat - 1 ∧ t.ST.toNat = s.ST.toNat - 1 ∧
      ChangesOnly (fun p => p = .fault ∨ p = .DT ∨ p = .ST) s t ∧ stepDiag s = .none

/-- The timers (R121; decision D10): in every step that is not halted, faulting steps too, each timer goes down by one
to a floor of 0, unless the instruction is the one that writes it. -/
def Obligations.TimersTick : Prop :=
  ∀ s t : State, s.fault = .none → step s = .next t →
    ((∀ op x, fetchWord s = some op → decodeWord op ≠ .ldDtVx x) → t.DT.toNat = s.DT.toNat - 1) ∧
    ((∀ op x, fetchWord s = some op → decodeWord op ≠ .ldStVx x) → t.ST.toNat = s.ST.toNat - 1)

/-- Determinism (R129, but for its bound on the work of a step, which has no form here; that every outcome is a next
state, faults too, is log entry 1): a step has exactly one outcome and always ends, in a next state; the random input
matters only for `Cxkk`; the instruction `Fx0A` with no key set changes nothing, and the step that runs it ends with `pc`,
and everything else but the timers (R121, decision D10), unchanged. -/
def Obligations.StepDeterministic : Prop :=
  (∀ s : State, ∃ t, step s = .next t ∧ ∀ u, step s = .next u → u = t) ∧
  (∀ (s t : State) (r : List Byte) (d : Nat),
    (∀ op x kk, fetchWord s = some op → decodeWord op ≠ .rndVxKk x kk) → step s = .next t →
    step { s with rndIn := r, draws := d } = .next { t with rndIn := r, draws := d }) ∧
  (∀ (s : State) (x : Nibble), (∀ k, k < 16 → keySet s k = false) → exec (.ldVxK x) s = .next s ∧
    (∀ op, s.fault = .none → fetchWord s = some op → decodeWord op = .ldVxK x →
      ∃ t, step s = .next t ∧ t.pc = s.pc ∧ ChangesOnly (fun p => p = .DT ∨ p = .ST) s t))

/-- The value of `pc` after a step that runs an instruction, by the table of R126 (`netPc`; its row for unknown words is
the spec's decision D8, log entry 8); a step that faults leaves `pc` where it was (decisions D2 to D6, log entry 1). -/
def Obligations.NetProgramCounter : Prop :=
  (∀ (s t : State) (op : Word), s.fault = .none → fetchWord s = some op → step s = .next t →
    t.pc = (if faultOf (decodeWord op) s = none then netPc (decodeWord op) s else s.pc) ∧
    (decodeWord op ≠ .ret → t.pc.toNat ≤ 0x10FE)) ∧
  (∀ s t : State, s.fault = .none → fetchWord s = none → step s = .next t → t.pc = s.pc) ∧
  (∀ (s : State) (nnn : Addr), (netPc (.jpV0Nnn nnn) s).toNat = (getV s 0).toNat + nnn.toNat)

/-- Which instruction writes what (the table of R36, an inference the spec marks): an instruction that does not fault
leaves every piece of state outside its row as it was. The row of `Dxyn` names the cells under the sprite (45_display.md),
and so rests on its bit order (decision D18, log entry 10) and its operand binding (decision D17, log entry 9). -/
def Obligations.InstructionFrame : Prop :=
  ∀ (i : Instr) (s t : State), faultOf i s = none → exec i s = .next t → ChangesOnly (writes i s) s t

/-- Faults are precise (R242 to R244; decisions D2 to D7, D28, log entry 1): an instruction whose fault condition holds
takes the fault, a next state in which the latch alone differs and `fault_out` gives the code of the cause (2 to 5, R241,
numbered by decision D27); any other instruction leaves the latch alone. -/
def Obligations.FaultsArePrecise : Prop :=
  ∀ (i : Instr) (s : State),
    (∀ c, faultOf i s = some c →
      ∃ t, exec i s = .next t ∧ t = { s with fault := c } ∧
        ((c = .dataAddress ∧ faultOut t = 2) ∨ (c = .stackOverflow ∧ faultOut t = 3) ∨
          (c = .stackUnderflow ∧ faultOut t = 4) ∨ (c = .keyIndex ∧ faultOut t = 5))) ∧
    (faultOf i s = none → ∃ t, exec i s = .next t ∧ t.fault = s.fault)

/-- What a step never does (R130, an inference the spec marks). -/
def Obligations.StepNever : Prop :=
  ∀ s t : State, step s = .next t →
    t.keys = s.keys ∧ (s.fault ≠ .none → t.fault = s.fault) ∧
    ((∀ op x, fetchWord s = some op → decodeWord op ≠ .ldBVx x ∧ decodeWord op ≠ .ldMemVx x) → t.mem = s.mem) ∧
    ((∀ op x y n, fetchWord s = some op → decodeWord op ≠ .cls ∧ decodeWord op ≠ .drwVxVyN x y n) → t.fb = s.fb) ∧
    ((∀ op nnn, fetchWord s = some op → decodeWord op ≠ .ret ∧ decodeWord op ≠ .callNnn nnn) →
      t.sp = s.sp ∧ t.stack = s.stack) ∧
    ((∀ op nnn x, fetchWord s = some op →
      decodeWord op ≠ .ldINnn nnn ∧ decodeWord op ≠ .addIVx x ∧ decodeWord op ≠ .ldFVx x) → t.I = s.I)

/-- A step from a fault-free state leaves it fault-free exactly when the fetch lies in memory and the instruction's
fault condition does not hold (the causes of R241, in the order of R254, an inference the spec marks). -/
def Obligations.SafeStep : Prop :=
  ∀ s t : State, Safe s → step s = .next t →
    (Safe t ↔ s.pc.toNat ≤ 0xFFE ∧ ∀ op, fetchWord s = some op → faultOf (decodeWord op) s = none)

/-- The flag register (10_state.md section 2): the six instructions that write the flag register as a side effect, with its value where it is not itself the
destination `x`; every other instruction leaves `V[0xF]` alone unless it is its destination. -/
def Obligations.FlagRegister : Prop :=
  (∀ (s : State) (x y : Nibble), x ≠ 0xF →
    (∃ t, exec (.addVxVy x y) s = .next t ∧
      getV t 0xF = if 255 < (getV s x).toNat + (getV s y).toNat then 1 else 0) ∧
    (∃ t, exec (.subVxVy x y) s = .next t ∧ getV t 0xF = if (getV s y).toNat < (getV s x).toNat then 1 else 0) ∧
    (∃ t, exec (.shrVx x y) s = .next t ∧ (getV t 0xF).toNat = (getV s x).toNat % 2) ∧
    (∃ t, exec (.subnVxVy x y) s = .next t ∧ getV t 0xF = if (getV s x).toNat < (getV s y).toNat then 1 else 0) ∧
    (∃ t, exec (.shlVx x y) s = .next t ∧ (getV t 0xF).toNat = (getV s x).toNat / 128)) ∧
  (∀ (s t : State) (x y n : Nibble), faultOf (.drwVxVyN x y n) s = none → exec (.drwVxVyN x y n) s = .next t →
    ((∃ i, cell s.fb i = true ∧ cell t.fb i = false) → getV t 0xF = 1) ∧
    ((¬ ∃ i, cell s.fb i = true ∧ cell t.fb i = false) → getV t 0xF = 0)) ∧
  (∀ (i : Instr) (s t : State), exec i s = .next t →
    (∀ x y, i ≠ .addVxVy x y ∧ i ≠ .subVxVy x y ∧ i ≠ .shrVx x y ∧ i ≠ .subnVxVy x y ∧ i ≠ .shlVx x y) →
    (∀ x y n, i ≠ .drwVxVyN x y n) →
    (∀ kk, i ≠ .ldVxKk 0xF kk ∧ i ≠ .addVxKk 0xF kk ∧ i ≠ .rndVxKk 0xF kk) →
    (∀ y, i ≠ .ldVxVy 0xF y ∧ i ≠ .orVxVy 0xF y ∧ i ≠ .andVxVy 0xF y ∧ i ≠ .xorVxVy 0xF y) →
    i ≠ .ldVxDt 0xF → i ≠ .ldVxK 0xF → i ≠ .ldVxMem 0xF → getV t 0xF = getV s 0xF)

/-! Jumps, call and return. -/

/-- The three jumps (R140, R142, R143, R145): nothing is pushed, the sum of `Bnnn` is not reduced to 12 bits. A target
above `0xFFE` makes the next step answer a next state with code 1: an inference of the spec from R65, by its decisions D3
and D27 and log entry 1. `1nnn` at its own address changes nothing but the timers (decision D10). -/
def Obligations.Jumps : Prop :=
  ∀ (s : State) (nnn : Addr),
    (nnn ≠ 0x0E0 → nnn ≠ 0x0EE → decodeWord (formatA 0x0 nnn) = .sysNnn nnn) ∧
    (∃ t, exec (.sysNnn nnn) s = .next t ∧ t.pc.toNat = nnn.toNat ∧ ChangesOnly (fun p => p = .pc) s t) ∧
    decodeWord (formatA 0x1 nnn) = .jpNnn nnn ∧
    (∃ t, exec (.jpNnn nnn) s = .next t ∧ t.pc.toNat = nnn.toNat ∧ ChangesOnly (fun p => p = .pc) s t) ∧
    decodeWord (formatA 0xB nnn) = .jpV0Nnn nnn ∧
    (∃ t, exec (.jpV0Nnn nnn) s = .next t ∧ t.pc.toNat = (getV s 0).toNat + nnn.toNat ∧
      ChangesOnly (fun p => p = .pc) s t) ∧
    (∀ i t, i = .sysNnn nnn ∨ i = .jpNnn nnn ∨ i = .jpV0Nnn nnn → exec i s = .next t → s.fault = .none →
      0xFFE < t.pc.toNat → ∃ u, step t = .next u ∧ faultOut u = 1) ∧
    (s.fault = .none → fetchWord s = some (formatA 0x1 nnn) → s.pc.toNat = nnn.toNat →
      ∃ t, step s = .next t ∧ ChangesOnly (fun p => p = .DT ∨ p = .ST) s t)

/-- `2nnn` (R144): with an entry free, `stack[sp]` takes `pc + 2`, `sp` goes up, `pc` is the target; with 16 in use the
fault `STACK_OVERFLOW` alone (decision D4, log entry 6). -/
def Obligations.Call : Prop :=
  ∀ (s : State) (nnn : Addr),
    (∀ k : Fin Config.stackDepth, s.sp.val = k.val →
      ∃ t, exec (.callNnn nnn) s = .next t ∧ t.stack[k] = s.pc + 2 ∧ t.sp.val = s.sp.val + 1 ∧
        t.pc.toNat = nnn.toNat ∧ ChangesOnly (fun p => p = .pc ∨ p = .sp ∨ p = .stack k) s t) ∧
    (s.sp.val = 16 → Faults .stackOverflow s (exec (.callNnn nnn) s))

/-- `00EE` (R141): `sp` goes down and `pc` is the entry it then names, with no extra 2, all entries as they were; with
an empty stack the fault `STACK_UNDERFLOW` alone (decision D5). -/
def Obligations.Return : Prop :=
  ∀ s : State,
    (∀ k : Fin Config.stackDepth, s.sp.val = k.val + 1 →
      ∃ t, exec .ret s = .next t ∧ t.sp.val = k.val ∧ t.pc = s.stack[k] ∧
        ChangesOnly (fun p => p = .pc ∨ p = .sp) s t) ∧
    (s.sp.val = 0 → Faults .stackUnderflow s (exec .ret s))

/-- Call and return together (R146, an inference the spec marks): when the stack below a call's entry and the entry are
as the call left them, the return restores `pc` to the address after the call and `sp` to its value before it. -/
def Obligations.CallThenReturn : Prop :=
  ∀ (s t u : State) (nnn : Addr), s.sp.val < 16 → exec (.callNnn nnn) s = .next t →
    u.sp = t.sp → (∀ k : Fin Config.stackDepth, k.val < t.sp.val → u.stack[k] = t.stack[k]) →
    ∃ v, exec .ret u = .next v ∧ v.pc = s.pc + 2 ∧ v.sp = s.sp

/-! Skips. -/

/-- R156 to R159: the four skips on registers, `pc + 4` when the condition holds and `pc + 2` when it does not. -/
def Obligations.RegisterSkips : Prop :=
  ∀ (s : State) (x y : Nibble) (kk : Byte),
    decodeWord (formatXK 0x3 x kk) = .seVxKk x kk ∧
    (∃ t, exec (.seVxKk x kk) s = .next t ∧ t.pc = (if getV s x = kk then s.pc + 4 else s.pc + 2) ∧
      ChangesOnly (fun p => p = .pc) s t) ∧
    decodeWord (formatXK 0x4 x kk) = .sneVxKk x kk ∧
    (∃ t, exec (.sneVxKk x kk) s = .next t ∧ t.pc = (if getV s x ≠ kk then s.pc + 4 else s.pc + 2) ∧
      ChangesOnly (fun p => p = .pc) s t) ∧
    decodeWord (formatXY 0x5 x y 0) = .seVxVy x y ∧
    (∃ t, exec (.seVxVy x y) s = .next t ∧ t.pc = (if getV s x = getV s y then s.pc + 4 else s.pc + 2) ∧
      ChangesOnly (fun p => p = .pc) s t) ∧
    decodeWord (formatXY 0x9 x y 0) = .sneVxVy x y ∧
    (∃ t, exec (.sneVxVy x y) s = .next t ∧ t.pc = (if getV s x ≠ getV s y then s.pc + 4 else s.pc + 2) ∧
      ChangesOnly (fun p => p = .pc) s t)

/-! Constants and random. -/

/-- R166, R167, R168: load a byte, add a byte modulo 256 with no flag, load the address register. -/
def Obligations.Constants : Prop :=
  ∀ (s : State) (x : Nibble) (kk : Byte) (nnn : Addr),
    decodeWord (formatXK 0x6 x kk) = .ldVxKk x kk ∧
    (∃ t, exec (.ldVxKk x kk) s = .next t ∧ getV t x = kk ∧ t.pc = s.pc + 2 ∧
      ChangesOnly (fun p => p = .pc ∨ p = .V x) s t) ∧
    decodeWord (formatXK 0x7 x kk) = .addVxKk x kk ∧
    (∃ t, exec (.addVxKk x kk) s = .next t ∧ (getV t x).toNat = ((getV s x).toNat + kk.toNat) % 256 ∧
      t.pc = s.pc + 2 ∧ ChangesOnly (fun p => p = .pc ∨ p = .V x) s t) ∧
    decodeWord (formatA 0xA nnn) = .ldINnn nnn ∧
    (∃ t, exec (.ldINnn nnn) s = .next t ∧ t.I.toNat = nnn.toNat ∧ t.pc = s.pc + 2 ∧
      ChangesOnly (fun p => p = .pc ∨ p = .I) s t)

/-- `Cxkk` (R169): `V[x]` is the step's random byte masked by `kk`: the byte the host supplied, else a free value of a
fresh draw (decision D11, log entry 3). Each draw is used once. -/
def Obligations.RandomByte : Prop :=
  ∀ (s : State) (x : Nibble) (kk : Byte),
    decodeWord (formatXK 0xC x kk) = .rndVxKk x kk ∧
    ∃ t, exec (.rndVxKk x kk) s = .next t ∧ t.pc = s.pc + 2 ∧
      (∀ b bs, s.rndIn = b :: bs → getV t x = b &&& kk ∧ t.rndIn = bs) ∧
      (s.rndIn = [] → getV t x = Config.rnd s.draws &&& kk) ∧ t.draws = s.draws + 1 ∧
      (∀ k, (getV t x).getLsbD k = true → kk.getLsbD k = true) ∧
      ChangesOnly (fun p => p = .pc ∨ p = .V x ∨ p = .rnd) s t

/-! Register-to-register operations. -/

/-- R176 to R179: copy, OR, AND, XOR; the flag register is not written unless it is `V[x]`. -/
def Obligations.CopyAndLogic : Prop :=
  ∀ (s : State) (x y : Nibble),
    decodeWord (formatXY 0x8 x y 0x0) = .ldVxVy x y ∧
    (∃ t, exec (.ldVxVy x y) s = .next t ∧ getV t x = getV s y ∧ t.pc = s.pc + 2 ∧
      ChangesOnly (fun p => p = .pc ∨ p = .V x) s t) ∧
    decodeWord (formatXY 0x8 x y 0x1) = .orVxVy x y ∧
    (∃ t, exec (.orVxVy x y) s = .next t ∧ getV t x = getV s x ||| getV s y ∧ t.pc = s.pc + 2 ∧
      ChangesOnly (fun p => p = .pc ∨ p = .V x) s t) ∧
    decodeWord (formatXY 0x8 x y 0x2) = .andVxVy x y ∧
    (∃ t, exec (.andVxVy x y) s = .next t ∧ getV t x = getV s x &&& getV s y ∧ t.pc = s.pc + 2 ∧
      ChangesOnly (fun p => p = .pc ∨ p = .V x) s t) ∧
    decodeWord (formatXY 0x8 x y 0x3) = .xorVxVy x y ∧
    (∃ t, exec (.xorVxVy x y) s = .next t ∧ getV t x = getV s x ^^^ getV s y ∧ t.pc = s.pc + 2 ∧
      ChangesOnly (fun p => p = .pc ∨ p = .V x) s t)

/-- `8xy4` (R180): the sum modulo 256, then the carry in the flag register. With `x = F` the carry is what remains, by the
sequential reading (decision D16, log entry 9). -/
def Obligations.AddWithCarryOut : Prop :=
  ∀ (s : State) (x y : Nibble),
    decodeWord (formatXY 0x8 x y 0x4) = .addVxVy x y ∧
    ∃ t, exec (.addVxVy x y) s = .next t ∧ t.pc = s.pc + 2 ∧
      (x ≠ 0xF → (getV t x).toNat = ((getV s x).toNat + (getV s y).toNat) % 256) ∧
      getV t 0xF = (if 255 < (getV s x).toNat + (getV s y).toNat then 1 else 0) ∧
      ChangesOnly (fun p => p = .pc ∨ p = .V x ∨ p = .V 0xF) s t

/-- `8xy5` and `8xy7` (the tables of R181 and R183): minuend `a`, subtrahend `b`, flag 1 exactly when the minuend is
strictly greater. The flag is written first and the operands are read again, which the rows with `F` show (decision D16,
log entry 9). -/
def Obligations.Subtract : Prop :=
  ∀ (s : State) (x y : Nibble),
    (∃ t, exec (.subVxVy x y) s = .next t ∧ t.pc = s.pc + 2 ∧
      (∀ a b f, a = (getV s x).toNat → b = (getV s y).toNat → f = (if b < a then 1 else 0) →
        (x ≠ 0xF → y ≠ 0xF → (getV t 0xF).toNat = f ∧ (getV t x).toNat = (256 + a - b) % 256) ∧
        (x = y → getV t 0xF = 0 ∧ getV t x = 0) ∧
        (x = 0xF → y ≠ 0xF → (getV t 0xF).toNat = (256 + f - b) % 256) ∧
        (y = 0xF → x ≠ 0xF → (getV t 0xF).toNat = f ∧ (getV t x).toNat = (256 + a - f) % 256)) ∧
      ChangesOnly (fun p => p = .pc ∨ p = .V x ∨ p = .V 0xF) s t) ∧
    (∃ t, exec (.subnVxVy x y) s = .next t ∧ t.pc = s.pc + 2 ∧
      (∀ a b f, a = (getV s x).toNat → b = (getV s y).toNat → f = (if a < b then 1 else 0) →
        (x ≠ 0xF → y ≠ 0xF → (getV t 0xF).toNat = f ∧ (getV t x).toNat = (256 + b - a) % 256) ∧
        (x = y → getV t 0xF = 0 ∧ getV t x = 0) ∧
        (x = 0xF → y ≠ 0xF → (getV t 0xF).toNat = (256 + b - f) % 256) ∧
        (y = 0xF → x ≠ 0xF → (getV t 0xF).toNat = f ∧ (getV t x).toNat = (256 + f - a) % 256)) ∧
      ChangesOnly (fun p => p = .pc ∨ p = .V x ∨ p = .V 0xF) s t)

/-- `8xy6` and `8xyE` (R182, R184): one place, in place on `V[x]`, whatever `y` is; the bit shifted out in the flag
register. With `x = F` the shift of the new flag remains (decision D16, log entry 9). -/
def Obligations.Shifts : Prop :=
  ∀ (s : State) (x y : Nibble),
    (∃ t, exec (.shrVx x y) s = .next t ∧ t.pc = s.pc + 2 ∧
      (x ≠ 0xF → (getV t 0xF).toNat = (getV s x).toNat % 2 ∧ (getV t x).toNat = (getV s x).toNat / 2) ∧
      (x = 0xF → getV t 0xF = 0) ∧ ChangesOnly (fun p => p = .pc ∨ p = .V x ∨ p = .V 0xF) s t) ∧
    (∃ t, exec (.shlVx x y) s = .next t ∧ t.pc = s.pc + 2 ∧
      (x ≠ 0xF → (getV t 0xF).toNat = (getV s x).toNat / 128 ∧ (getV t x).toNat = 2 * (getV s x).toNat % 256) ∧
      (x = 0xF → (getV t 0xF).toNat = 2 * ((getV s x).toNat / 128)) ∧
      ChangesOnly (fun p => p = .pc ∨ p = .V x ∨ p = .V 0xF) s t)

/-! Framebuffer. -/

/-- R197: all 2048 cells unlit, the flag register not written. -/
def Obligations.ClearScreen : Prop :=
  decodeWord 0x00E0 = .cls ∧
  ∀ s : State, ∃ t, exec .cls s = .next t ∧ (∀ i, cell t.fb i = false) ∧ t.pc = s.pc + 2 ∧
    ChangesOnly (fun p => p = .pc ∨ ∃ i, p = .cell i) s t

/-- `Dxyn` (R198): in range, each cell under a set sprite bit is flipped once and no other; the flag register is 1 when
one of them was lit and 0 otherwise. Out of range, the fault `DATA_ADDRESS` alone. The bit order of a sprite row is
decision D18 (log entry 10), the operand binding D17 (log entry 9), the range check D2. -/
def Obligations.DrawSprite : Prop :=
  ∀ (s : State) (x y n : Nibble),
    (n = 0 ∨ s.I.toNat + n.toNat - 1 ≤ 0xFFF →
      ∃ t, exec (.drwVxVyN x y n) s = .next t ∧ t.pc = s.pc + 2 ∧
        (∀ i, (spriteCovers s (getV s x).toNat (getV s y).toNat n.toNat i → cell t.fb i = !cell s.fb i) ∧
          (¬ spriteCovers s (getV s x).toNat (getV s y).toNat n.toNat i → cell t.fb i = cell s.fb i)) ∧
        ((∃ i, spriteCovers s (getV s x).toNat (getV s y).toNat n.toNat i ∧ cell s.fb i = true) → getV t 0xF = 1) ∧
        ((¬ ∃ i, spriteCovers s (getV s x).toNat (getV s y).toNat n.toNat i ∧ cell s.fb i = true) → getV t 0xF = 0) ∧
        ChangesOnly (fun p => p = .pc ∨ p = .V 0xF ∨
          ∃ i, spriteCovers s (getV s x).toNat (getV s y).toNat n.toNat i ∧ p = .cell i) s t) ∧
    (n ≠ 0 → 0xFFF < s.I.toNat + n.toNat - 1 → Faults .dataAddress s (exec (.drwVxVyN x y n) s))

/-- Drawing the same sprite twice at the same place restores every cell, and the second draw reports a collision exactly
when the first one lit a cell (R195, R199; log entries 9, 10). -/
def Obligations.DrawTwiceRestores : Prop :=
  ∀ (s t u : State) (x y n : Nibble), (n = 0 ∨ s.I.toNat + n.toNat - 1 ≤ 0xFFF) →
    exec (.drwVxVyN x y n) s = .next t →
    u.fb = t.fb → u.mem = s.mem → u.I = s.I → getV u x = getV s x → getV u y = getV s y →
    ∃ v, exec (.drwVxVyN x y n) u = .next v ∧ (∀ i, cell v.fb i = cell s.fb i) ∧
      ((∃ i, cell s.fb i = false ∧ cell t.fb i = true) → getV v 0xF = 1) ∧
      ((¬ ∃ i, cell s.fb i = false ∧ cell t.fb i = true) → getV v 0xF = 0)

/-! Keys and timers. -/

/-- `Ex9E` and `ExA1` (R211, R212): with a key number in `V[x]`, the skip on that key's flag; with a larger value, the
fault `KEY_INDEX` alone (decision D6). -/
def Obligations.KeySkips : Prop :=
  ∀ (s : State) (x : Nibble),
    ((getV s x).toNat ≤ 15 →
      (∃ t, exec (.skpVx x) s = .next t ∧
        t.pc = (if keySet s (getV s x).toNat = true then s.pc + 4 else s.pc + 2) ∧ ChangesOnly (fun p => p = .pc) s t) ∧
      (∃ t, exec (.sknpVx x) s = .next t ∧
        t.pc = (if keySet s (getV s x).toNat = false then s.pc + 4 else s.pc + 2) ∧
        ChangesOnly (fun p => p = .pc) s t)) ∧
    (15 < (getV s x).toNat →
      Faults .keyIndex s (exec (.skpVx x) s) ∧ Faults .keyIndex s (exec (.sknpVx x) s))

/-- R214: with a key set, `V[x]` is the smallest set key's number and `pc` advances; with none, nothing changes, so that
the next step runs it again, and only the timers run on. -/
def Obligations.KeyWait : Prop :=
  ∀ (s : State) (x : Nibble),
    decodeWord (formatXK 0xF x 0x0A) = .ldVxK x ∧
    (∀ k, k < 16 → keySet s k = true → (∀ j, j < k → keySet s j = false) →
      ∃ t, exec (.ldVxK x) s = .next t ∧ (getV t x).toNat = k ∧ t.pc = s.pc + 2 ∧
        ChangesOnly (fun p => p = .pc ∨ p = .V x) s t) ∧
    ((∀ k, k < 16 → keySet s k = false) → exec (.ldVxK x) s = .next s ∧
      (∀ op, s.fault = .none → fetchWord s = some op → decodeWord op = .ldVxK x →
        ∃ t, step s = .next t ∧ t.DT.toNat = s.DT.toNat - 1 ∧ t.ST.toNat = s.ST.toNat - 1 ∧
          ChangesOnly (fun p => p = .DT ∨ p = .ST) s t))

/-- `Fx07`, `Fx15`, `Fx18` (R213, R215, R216): read the delay timer, set the delay timer, set the sound timer. In a step
they act after the timers' decrement, so the value written is the one held when the step ends: an inference of the spec
from R121 (decision D10). -/
def Obligations.TimerAccess : Prop :=
  ∀ (s : State) (x : Nibble),
    decodeWord (formatXK 0xF x 0x07) = .ldVxDt x ∧
    (∃ t, exec (.ldVxDt x) s = .next t ∧ getV t x = s.DT ∧ t.pc = s.pc + 2 ∧
      ChangesOnly (fun p => p = .pc ∨ p = .V x) s t) ∧
    decodeWord (formatXK 0xF x 0x15) = .ldDtVx x ∧
    (∃ t, exec (.ldDtVx x) s = .next t ∧ t.DT = getV s x ∧ t.pc = s.pc + 2 ∧
      ChangesOnly (fun p => p = .pc ∨ p = .DT) s t) ∧
    decodeWord (formatXK 0xF x 0x18) = .ldStVx x ∧
    (∃ t, exec (.ldStVx x) s = .next t ∧ t.ST = getV s x ∧ t.pc = s.pc + 2 ∧
      ChangesOnly (fun p => p = .pc ∨ p = .ST) s t) ∧
    (∀ t op, s.fault = .none → fetchWord s = some op → step s = .next t →
      (decodeWord op = .ldVxDt x → (getV t x).toNat = s.DT.toNat - 1) ∧
      (decodeWord op = .ldDtVx x → t.DT = getV s x) ∧ (decodeWord op = .ldStVx x → t.ST = getV s x))

/-! Address register and memory. -/

/-- `Fx1E` (R226): the sum modulo 65536, no flag (the spec's decision D22). -/
def Obligations.AddToAddressRegister : Prop :=
  ∀ (s : State) (x : Nibble),
    ∃ t, exec (.addIVx x) s = .next t ∧ t.I.toNat = (s.I.toNat + (getV s x).toNat) % 65536 ∧ t.pc = s.pc + 2 ∧
      ChangesOnly (fun p => p = .pc ∨ p = .I) s t

/-- R227: five times the whole of `V[x]`. -/
def Obligations.GlyphAddress : Prop :=
  ∀ (s : State) (x : Nibble),
    decodeWord (formatXK 0xF x 0x29) = .ldFVx x ∧
    ∃ t, exec (.ldFVx x) s = .next t ∧ t.I.toNat = 5 * (getV s x).toNat ∧ t.pc = s.pc + 2 ∧
      ChangesOnly (fun p => p = .pc ∨ p = .I) s t

/-- `Fx33` (R228; the fault is the spec's decision D2, log entry 1): the hundreds, tens and ones digit at `I`, `I + 1`, `I + 2`; past the end of memory, `DATA_ADDRESS` and no
byte written. -/
def Obligations.StoreDecimal : Prop :=
  ∀ (s : State) (x : Nibble),
    decodeWord (formatXK 0xF x 0x33) = .ldBVx x ∧
    (s.I.toNat + 2 ≤ 0xFFF →
      ∃ t, exec (.ldBVx x) s = .next t ∧ (memRead t.mem s.I.toNat).toNat = (getV s x).toNat / 100 ∧
        (memRead t.mem (s.I.toNat + 1)).toNat = (getV s x).toNat / 10 % 10 ∧
        (memRead t.mem (s.I.toNat + 2)).toNat = (getV s x).toNat % 10 ∧ t.pc = s.pc + 2 ∧
        ChangesOnly (fun p => p = .pc ∨ ∃ a, s.I.toNat ≤ a ∧ a ≤ s.I.toNat + 2 ∧ p = .mem a) s t) ∧
    (0xFFF < s.I.toNat + 2 → Faults .dataAddress s (exec (.ldBVx x) s))

/-- `Fx55` (R229; the fault is the spec's decision D2, log entry 1): `V[0] .. V[x]` to `I .. I + x`, `I` unchanged; past the end of memory, `DATA_ADDRESS` and no byte written. -/
def Obligations.StoreRegisters : Prop :=
  ∀ (s : State) (x : Nibble),
    decodeWord (formatXK 0xF x 0x55) = .ldMemVx x ∧
    (s.I.toNat + x.toNat ≤ 0xFFF →
      ∃ t, exec (.ldMemVx x) s = .next t ∧
        (∀ r : Nibble, r.toNat ≤ x.toNat → memRead t.mem (s.I.toNat + r.toNat) = getV s r) ∧ t.pc = s.pc + 2 ∧
        ChangesOnly (fun p => p = .pc ∨ ∃ a, s.I.toNat ≤ a ∧ a ≤ s.I.toNat + x.toNat ∧ p = .mem a) s t) ∧
    (0xFFF < s.I.toNat + x.toNat → Faults .dataAddress s (exec (.ldMemVx x) s))

/-- `Fx65` (R230; the fault is the spec's decision D2, log entry 1): `I .. I + x` to `V[0] .. V[x]`, registers above `x`, `I` and memory unchanged; past the end of memory,
`DATA_ADDRESS` and no register written. -/
def Obligations.LoadRegisters : Prop :=
  ∀ (s : State) (x : Nibble),
    decodeWord (formatXK 0xF x 0x65) = .ldVxMem x ∧
    (s.I.toNat + x.toNat ≤ 0xFFF →
      ∃ t, exec (.ldVxMem x) s = .next t ∧
        (∀ r : Nibble, r.toNat ≤ x.toNat → getV t r = memRead s.mem (s.I.toNat + r.toNat)) ∧ t.pc = s.pc + 2 ∧
        ChangesOnly (fun p => p = .pc ∨ ∃ r : Nibble, r.toNat ≤ x.toNat ∧ p = .V r) s t) ∧
    (0xFFF < s.I.toNat + x.toNat → Faults .dataAddress s (exec (.ldVxMem x) s))

/-- Round trips (R231, an inference the spec marks): a load after a store with the same `x` and `I` gives the stored
registers; a load of three after a decimal store gives the hundreds, tens and ones digit of the value. -/
def Obligations.StoreThenLoad : Prop :=
  ∀ (s t u : State) (x : Nibble), u.mem = t.mem → u.I = s.I →
    (s.I.toNat + x.toNat ≤ 0xFFF → exec (.ldMemVx x) s = .next t →
      ∃ v, exec (.ldVxMem x) u = .next v ∧ ∀ r : Nibble, r.toNat ≤ x.toNat → getV v r = getV s r) ∧
    (s.I.toNat + 2 ≤ 0xFFF → exec (.ldBVx x) s = .next t →
      ∃ v, exec (.ldVxMem 2) u = .next v ∧
        (getV v 0).toNat = (getV s x).toNat / 100 ∧ (getV v 1).toNat = (getV s x).toNat / 10 % 10 ∧
        (getV v 2).toNat = (getV s x).toNat % 10)

/-- A store of `Fx55` or `Fx33` is seen by every later fetch, with nothing in between (R76, an inference the spec marks):
each byte of a fetched word is the byte stored at its address if there is one, else the byte memory held before. -/
def Obligations.FetchSeesStore : Prop :=
  ∀ (s t u : State) (x : Nibble), u.mem = t.mem → u.pc.toNat ≤ 0xFFE →
    (s.I.toNat + x.toNat ≤ 0xFFF → exec (.ldMemVx x) s = .next t →
      ∃ hi lo : Byte, fetchWord u = some (hi ++ lo) ∧
        ∀ a b, (a = u.pc.toNat ∧ b = hi) ∨ (a = u.pc.toNat + 1 ∧ b = lo) →
          (∀ r : Nibble, r.toNat ≤ x.toNat → a = s.I.toNat + r.toNat → b = getV s r) ∧
          (a < s.I.toNat ∨ s.I.toNat + x.toNat < a → b = memRead s.mem a)) ∧
    (s.I.toNat + 2 ≤ 0xFFF → exec (.ldBVx x) s = .next t →
      ∃ hi lo : Byte, fetchWord u = some (hi ++ lo) ∧
        ∀ a b, (a = u.pc.toNat ∧ b = hi) ∨ (a = u.pc.toNat + 1 ∧ b = lo) →
          (a = s.I.toNat → b.toNat = (getV s x).toNat / 100) ∧
          (a = s.I.toNat + 1 → b.toNat = (getV s x).toNat / 10 % 10) ∧
          (a = s.I.toNat + 2 → b.toNat = (getV s x).toNat % 10) ∧
          (a < s.I.toNat ∨ s.I.toNat + 2 < a → b = memRead s.mem a))

/-! Unknown words and the diagnostic. -/

/-- `UNKNOWN` (R127, R251; decision D8, log entries 7 and 8): an unknown word advances `pc` by 2 and changes nothing
else; the step's `diag` carries the word. A step that runs a known word has `diag = none`. -/
def Obligations.UnknownIsNoOp : Prop :=
  (∀ (s : State) (op : Word), ∃ t, exec (.unknown op) s = .next t ∧ t.pc = s.pc + 2 ∧
    ChangesOnly (fun p => p = .pc) s t) ∧
  (∀ (s : State) (op : Word), s.fault = .none → fetchWord s = some op →
    stepDiag s = if unknownWord op = true then .invalidOpcode op else .none)

/-! The host's ports. -/

/-- ROM load (R282; decisions D20, D23): after reset and before any other port is used, the port accepts at most 3584 bytes, which go
verbatim to `0x200` on, nothing else changes, and the load is counted; a longer ROM is rejected with nothing written. -/
def Obligations.RomLoad : Prop :=
  ∀ (s : State) (bytes : List Byte),
    (bytes.length ≤ 3584 →
      ∃ t, loadRom bytes s = .ok t ∧ hostMove (.load bytes) ⟨s, false, false⟩ = some (.done, ⟨t, true, false⟩) ∧
        (∀ (i : Nat) (b : Byte), bytes[i]? = some b → memRead t.mem (0x200 + i) = b) ∧
        ChangesOnly (fun p => ∃ a, 0x200 ≤ a ∧ a < 0x200 + bytes.length ∧ p = .mem a) s t) ∧
    (3584 < bytes.length → loadRom bytes s = .error .tooLong ∧
      ∃ v, hostMove (.load bytes) ⟨s, false, false⟩ = some (.loadError, v) ∧ v.core = s)

/-- R50: `keys_write` replaces all 16 flags and nothing else; the host may call it at any point between steps; a step
leaves the flags as they are. -/
def Obligations.KeysPort : Prop :=
  ∀ (s : State) (k : BitVec 16),
    (∀ i, keySet (keysWrite k s) i = k.getLsbD i) ∧ ChangesOnly (fun p => p = .keys) s (keysWrite k s) ∧
    (∀ w : System, ∃ v, hostMove (.keysWrite k) w = some (.done, v) ∧ v.core = keysWrite k w.core) ∧
    (∀ t, step s = .next t → t.keys = s.keys)

/-- R285: the framebuffer is read as the 2048 cells in index order `x + 64*y`, and reading changes nothing in the core. -/
def Obligations.FramebufferRead : Prop :=
  ∀ w : System, ∃ cells v, hostMove .fbRead w = some (.picture cells, v) ∧ v.core = w.core ∧ cells.length = 2048 ∧
    ∀ x y, x < 64 → y < 32 → cells[x + 64 * y]? = some (cell w.core.fb (x + 64 * y))

/-- The order of the ports (R45, R46, R52; decisions D11, D23, log entries 3, 13): reset, then at most one load, then the
others. A load that fits is accepted before any load and any use of another port, and closes the window; so does every
other move but reset, which alone opens it again; a rejected load changes nothing; outside the window no load is possible.
A step is always possible; the core after it is the next state of `step` with the byte the host names as its random input,
which `Cxkk` uses, and no byte is kept for a later step. -/
def Obligations.PortOrder : Prop :=
  ∀ (w : System),
    (∀ bytes, w.loaded = false → w.used = false →
      (∀ t, loadRom bytes w.core = .ok t → hostMove (.load bytes) w = some (.done, ⟨t, true, false⟩)) ∧
      (∀ e, loadRom bytes w.core = .error e → hostMove (.load bytes) w = some (.loadError, w))) ∧
    (∀ bytes, w.loaded = true ∨ w.used = true → hostMove (.load bytes) w = none) ∧
    (∀ m r v, m ≠ .reset → hostMove m w = some (r, v) →
      (w.loaded = true → v.loaded = true) ∧ (w.used = true → v.used = true) ∧
      ((∀ bytes, m ≠ .load bytes) → v.used = true ∧ v.loaded = w.loaded)) ∧
    (∀ b, ∃ t, step { w.core with rndIn := [b] } = .next t ∧
      hostMove (.step b) w = some (.diag (stepDiag w.core), ⟨{ t with rndIn := [] }, w.loaded, true⟩) ∧
      (∀ op x kk, w.core.fault = .none → fetchWord w.core = some op → decodeWord op = .rndVxKk x kk →
        getV t x = b &&& kk))

/-- Reset is the only way out of a fault (R44, R255, R275, R287; decisions D7, D23): it is possible at any time, cannot
fail, gives the reset state and opens the load window again; after any other legal move of the host a fault that was
latched still is. -/
def Obligations.ResetOnlyWayOut : Prop :=
  (∀ w : System, hostMove .reset w = some (.done, ⟨State.reset, false, false⟩)) ∧
  (∀ (w v : System) (m : Move) (r : Reply), m ≠ .reset → hostMove m w = some (r, v) →
    w.core.fault ≠ .none → v.core.fault = w.core.fault)

/-- The idle state (R294; decision D26): every further step leaves the state idle and only lets the timers run down. -/
def Obligations.IdleStaysIdle : Prop :=
  ∀ s : State, idle s = true →
    ∃ t, step s = .next t ∧ idle t = true ∧ t.DT.toNat = s.DT.toNat - 1 ∧ t.ST.toNat = s.ST.toNat - 1 ∧
      ChangesOnly (fun p => p = .DT ∨ p = .ST) s t

/-- `st_out` and `fault_out` (R49, decision D29; the codes of R241, decision D27): at any time between steps the host reads
the sound timer and the 3-bit code of the latch, and reading changes nothing in the core. -/
def Obligations.OutputsRead : Prop :=
  ∀ w : System,
    (∃ v, hostMove .stOut w = some (.sound w.core.ST, v) ∧ v.core = w.core) ∧
    ∃ c v, hostMove .faultOut w = some (.cause c, v) ∧ v.core = w.core ∧
      (w.core.fault = .none → c = 0) ∧ (w.core.fault = .fetchAddress → c = 1) ∧
      (w.core.fault = .dataAddress → c = 2) ∧ (w.core.fault = .stackOverflow → c = 3) ∧
      (w.core.fault = .stackUnderflow → c = 4) ∧ (w.core.fault = .keyIndex → c = 5)
end

