-- ==== Sys2Proof/Laws/Decode.lean ====
section
/-! SUPPORT. The fields of a word built from its fields (30_encoding.md R91, R92). -/

namespace Sys2Proof

section Formats

variable (top x y n : Nibble) (nnn : Addr) (kk : Byte)

@[simp] theorem fieldTop_formatA : fieldTop (formatA top nnn) = top := by
  rw [fieldTop, formatA]
  exact BitVec.extractLsb'_append_eq_left

@[simp] theorem fieldNnn_formatA : fieldNnn (formatA top nnn) = nnn := by
  rw [fieldNnn, formatA]
  exact BitVec.extractLsb'_append_eq_right

@[simp] theorem fieldTop_formatXK : fieldTop (formatXK top x kk) = top := by
  rw [fieldTop, formatXK, BitVec.extractLsb'_append_eq_of_le (by decide)]
  exact BitVec.extractLsb'_append_eq_left

@[simp] theorem fieldX_formatXK : fieldX (formatXK top x kk) = x := by
  rw [fieldX, formatXK, BitVec.extractLsb'_append_eq_of_le (by decide)]
  exact BitVec.extractLsb'_append_eq_right

@[simp] theorem fieldKk_formatXK : fieldKk (formatXK top x kk) = kk := by
  rw [fieldKk, formatXK]
  exact BitVec.extractLsb'_append_eq_right

@[simp] theorem fieldTop_formatXY : fieldTop (formatXY top x y n) = top := by
  rw [fieldTop, formatXY, BitVec.extractLsb'_append_eq_of_le (by decide), BitVec.extractLsb'_append_eq_of_le (by decide)]
  exact BitVec.extractLsb'_append_eq_left

@[simp] theorem fieldX_formatXY : fieldX (formatXY top x y n) = x := by
  rw [fieldX, formatXY, BitVec.extractLsb'_append_eq_of_le (by decide), BitVec.extractLsb'_append_eq_of_le (by decide)]
  exact BitVec.extractLsb'_append_eq_right

@[simp] theorem fieldY_formatXY : fieldY (formatXY top x y n) = y := by
  rw [fieldY, formatXY, BitVec.extractLsb'_append_eq_of_le (by decide)]
  exact BitVec.extractLsb'_append_eq_right

@[simp] theorem fieldN_formatXY : fieldN (formatXY top x y n) = n := by
  rw [fieldN, formatXY]
  exact BitVec.extractLsb'_append_eq_right

end Formats

end Sys2Proof
end

