-- ==== Sys2Proof/Laws/Display.lean ====
section
/-! SUPPORT. The laws of the framebuffer (45_display.md R196, R198): a toggle flips one cell, and a drawn sprite flips
each cell under one of its set bits once. -/

namespace Sys2Proof.Machine

theorem pixelIndex_lt (px py : Nat) : pixelIndex px py < 2048 := by
  unfold pixelIndex; omega

theorem cell_cleared (i : Nat) : cell clearedFb i = false := by
  by_cases h : i / 64 < 32
  · simp [cell, clearedFb, h]
  · simp [cell, clearedFb, h]

theorem one_shiftLeft_getLsbD (k j : Nat) (hj : j < 64) : ((1 : BitVec 64) <<< k).getLsbD j = decide (j = k) := by
  simp only [BitVec.getLsbD_shiftLeft]
  by_cases h : j = k
  · subst h; simp [hj]
  · by_cases h2 : j < k
    · simp [h, h2]
    · have h3 : j - k ≠ 0 := by omega
      simp [h, h2, hj, h3]

/-- Set pixel flips exactly its cell (R196). -/
theorem cell_togglePixel (px py : Nat) (f : Framebuffer) (i : Nat) :
    cell (togglePixel px py f) i = (cell f i ^^ decide (i = pixelIndex px py)) := by
  have hy : py % 32 < 32 := Nat.mod_lt _ (by decide)
  by_cases hi : i / 64 < 32
  · simp only [cell, togglePixel, Vector.getElem?_eq_getElem hi, Option.getD_some, Vector.getElem_set]
    by_cases h : py % 32 = i / 64
    · rw [if_pos h, BitVec.getLsbD_xor, one_shiftLeft_getLsbD _ _ (Nat.mod_lt _ (by decide))]
      simp only [h]
      congr 1
      rw [decide_eq_decide, pixelIndex]
      omega
    · rw [if_neg h]
      have : ¬ i = pixelIndex px py := by rw [pixelIndex]; omega
      simp [this]
  · have h1 : ∀ g : Framebuffer, cell g i = false := fun g => by simp [cell, hi]
    have : ¬ i = pixelIndex px py := by have := pixelIndex_lt px py; omega
    simp [h1, this]

/-- Cell `i` is under a set bit of one of the columns `cs` of a row byte drawn at column `px`, row `py`. -/
def rowCovers (b : Byte) (px py : Nat) (cs : List Nat) (i : Nat) : Prop :=
  ∃ c ∈ cs, spriteBit b c = true ∧ i = pixelIndex (px + c) py

/-- Cell `i` is under a set bit of the rows `bs` drawn at column `px`, row `py` (R198). -/
def rowsCover (bs : List Byte) (px py i : Nat) : Prop :=
  ∃ (r : Nat) (h : r < bs.length) (c : Nat), c < 8 ∧ spriteBit bs[r] c = true ∧ i = pixelIndex (px + c) (py + r)

open Classical in
/-- Columns that lie on different cells: each set bit flips its cell once, and the collision flag tells whether one of
those cells was lit before the first of them was drawn. -/
theorem drawBits_spec (b : Byte) (px py : Nat) (cs : List Nat)
    (hd : cs.Pairwise fun c d => pixelIndex (px + c) py ≠ pixelIndex (px + d) py) (acc : Framebuffer × Bool) :
    (∀ i, cell (cs.foldl (drawBit b px py) acc).1 i = (cell acc.1 i ^^ decide (rowCovers b px py cs i))) ∧
    ((cs.foldl (drawBit b px py) acc).2 = true ↔
      acc.2 = true ∨ ∃ i, rowCovers b px py cs i ∧ cell acc.1 i = true) := by
  induction cs generalizing acc with
  | nil => simp [rowCovers]
  | cons c cs ih =>
    rw [List.pairwise_cons] at hd
    obtain ⟨hcell, hflag⟩ := ih hd.2 (drawBit b px py acc c)
    rw [List.foldl_cons]
    by_cases hb : spriteBit b c = true
    · have hacc : drawBit b px py acc c =
          (togglePixel (px + c) py acc.1, acc.2 || cell acc.1 (pixelIndex (px + c) py)) := by
        simp [drawBit, hb, setPixel]
      have hnew : ¬ rowCovers b px py cs (pixelIndex (px + c) py) := by
        rintro ⟨d, hdm, -, he⟩
        exact hd.1 d hdm he
      have hcons : ∀ i, rowCovers b px py (c :: cs) i ↔ i = pixelIndex (px + c) py ∨ rowCovers b px py cs i := by
        intro i; simp [rowCovers, hb]
      constructor
      · intro i
        rw [hcell, hacc, cell_togglePixel]
        by_cases hi : i = pixelIndex (px + c) py
        · subst hi; simp [hnew, hcons]
        · simp [hi, hcons]
      · rw [hflag, hacc]
        simp only [Bool.or_eq_true, cell_togglePixel, hcons]
        constructor
        · rintro ((h | h) | ⟨i, hi, hl⟩)
          · exact .inl h
          · exact .inr ⟨_, .inl rfl, h⟩
          · have hne : i ≠ pixelIndex (px + c) py := fun he => hnew (he ▸ hi)
            exact .inr ⟨i, .inr hi, by simpa [hne] using hl⟩
        · rintro (h | ⟨i, rfl | hi, hl⟩)
          · exact .inl (.inl h)
          · exact .inl (.inr hl)
          · have hne : i ≠ pixelIndex (px + c) py := fun he => hnew (he ▸ hi)
            exact .inr ⟨i, hi, by simpa [hne] using hl⟩
    · have hacc : drawBit b px py acc c = acc := by simp [drawBit, hb]
      have hcons : ∀ i, rowCovers b px py (c :: cs) i ↔ rowCovers b px py cs i := by
        intro i; simp [rowCovers, hb]
      simp only [hacc] at hcell hflag ⊢
      simp only [hcons]
      exact ⟨hcell, hflag⟩

/-- The eight columns of a row lie on different cells. -/
theorem columns_apart (px py : Nat) :
    [0, 1, 2, 3, 4, 5, 6, 7].Pairwise fun c d => pixelIndex (px + c) py ≠ pixelIndex (px + d) py := by
  simp only [pixelIndex, List.pairwise_cons, List.mem_cons, List.not_mem_nil, or_false]
  refine ⟨?_, ?_, ?_, ?_, ?_, ?_, ?_, ?_, List.Pairwise.nil⟩ <;> intro d hd <;> first | omega | cases hd

open Classical in
/-- Drawing at most 32 rows (R198): each cell under a set bit is flipped once, and the flag tells whether one of them
was lit before the draw. -/
theorem drawRows_spec (px py : Nat) (bs : List Byte) (hlen : bs.length ≤ 32) (acc : Framebuffer × Bool) :
    (∀ i, cell (drawRows px py bs acc).1 i = (cell acc.1 i ^^ decide (rowsCover bs px py i))) ∧
    ((drawRows px py bs acc).2 = true ↔ acc.2 = true ∨ ∃ i, rowsCover bs px py i ∧ cell acc.1 i = true) := by
  induction bs generalizing py acc with
  | nil => simp [drawRows, rowsCover]
  | cons b bs ih =>
    rw [List.length_cons] at hlen
    obtain ⟨hcell, hflag⟩ := ih (py + 1) (by omega) (drawRow b px py acc)
    obtain ⟨rcell, rflag⟩ := drawBits_spec b px py _ (columns_apart px py) acc
    have hcons : ∀ i, rowsCover (b :: bs) px py i ↔
        rowCovers b px py [0, 1, 2, 3, 4, 5, 6, 7] i ∨ rowsCover bs px (py + 1) i := by
      intro i
      constructor
      · rintro ⟨r, hr, c, hc, hb, he⟩
        cases r with
        | zero =>
          refine .inl ⟨c, ?_, by simpa using hb, by simpa using he⟩
          simp only [List.mem_cons, List.not_mem_nil, or_false]
          omega
        | succ r =>
          refine .inr ⟨r, by simpa using hr, c, hc, by simpa using hb, ?_⟩
          rw [he]; congr 1; omega
      · rintro (⟨c, hc, hb, he⟩ | ⟨r, hr, c, hc, hb, he⟩)
        · refine ⟨0, by simp, c, ?_, by simpa using hb, by simpa using he⟩
          simp only [List.mem_cons, List.not_mem_nil, or_false] at hc
          omega
        · refine ⟨r + 1, by simpa using hr, c, hc, by simpa using hb, ?_⟩
          rw [he]; congr 1; omega
    have hapart : ∀ i, rowCovers b px py [0, 1, 2, 3, 4, 5, 6, 7] i → ¬ rowsCover bs px (py + 1) i := by
      rintro i ⟨c, -, -, he⟩ ⟨r, hr, d, -, -, he2⟩
      rw [he] at he2
      simp only [pixelIndex] at he2
      omega
    rw [drawRows]
    change ∀ i, cell (drawRow b px py acc).1 i = _ at rcell
    change (drawRow b px py acc).2 = true ↔ _ at rflag
    constructor
    · intro i
      rw [hcell, rcell]
      by_cases h1 : rowCovers b px py [0, 1, 2, 3, 4, 5, 6, 7] i
      · simp [h1, hapart i h1, hcons]
      · simp [h1, hcons]
    · rw [hflag, rflag]
      simp only [rcell, hcons]
      constructor
      · rintro ((h | ⟨i, hi, hl⟩) | ⟨i, hi, hl⟩)
        · exact .inl h
        · exact .inr ⟨i, .inl hi, hl⟩
        · have hno : ¬ rowCovers b px py [0, 1, 2, 3, 4, 5, 6, 7] i := fun h => hapart i h hi
          exact .inr ⟨i, .inr hi, by simpa [hno] using hl⟩
      · rintro (h | ⟨i, hi | hi, hl⟩)
        · exact .inl (.inl h)
        · exact .inl (.inr ⟨i, hi, hl⟩)
        · have hno : ¬ rowCovers b px py [0, 1, 2, 3, 4, 5, 6, 7] i := fun h => hapart i h hi
          exact .inr ⟨i, hi, by simpa [hno] using hl⟩

end Sys2Proof.Machine
end

