-- ==== Sys2Proof/Laws/State.lean ====
section
/-! SUPPORT. One lemma per field and state update, so that no proof unfolds a record update, and the reads of a register
after each update. -/

namespace Sys2Proof.Machine

variable (s : State)

/-! `setV` -/

@[simp] theorem setV_V (x : Nibble) (v : Byte) : (setV x v s).V = s.V.set x.toNat v x.isLt := rfl
@[simp] theorem setV_I (x : Nibble) (v : Byte) : (setV x v s).I = s.I := rfl
@[simp] theorem setV_pc (x : Nibble) (v : Byte) : (setV x v s).pc = s.pc := rfl
@[simp] theorem setV_DT (x : Nibble) (v : Byte) : (setV x v s).DT = s.DT := rfl
@[simp] theorem setV_ST (x : Nibble) (v : Byte) : (setV x v s).ST = s.ST := rfl
@[simp] theorem setV_stack (x : Nibble) (v : Byte) : (setV x v s).stack = s.stack := rfl
@[simp] theorem setV_sp (x : Nibble) (v : Byte) : (setV x v s).sp = s.sp := rfl
@[simp] theorem setV_mem (x : Nibble) (v : Byte) : (setV x v s).mem = s.mem := rfl
@[simp] theorem setV_fb (x : Nibble) (v : Byte) : (setV x v s).fb = s.fb := rfl
@[simp] theorem setV_keys (x : Nibble) (v : Byte) : (setV x v s).keys = s.keys := rfl
@[simp] theorem setV_fault (x : Nibble) (v : Byte) : (setV x v s).fault = s.fault := rfl
@[simp] theorem setV_rndIn (x : Nibble) (v : Byte) : (setV x v s).rndIn = s.rndIn := rfl
@[simp] theorem setV_draws (x : Nibble) (v : Byte) : (setV x v s).draws = s.draws := rfl

/-! `setFlag` -/

@[simp] theorem setFlag_V (b : Bool) : (setFlag b s).V = s.V.set flagReg.toNat (if b then 1 else 0) flagReg.isLt := rfl
@[simp] theorem setFlag_I (b : Bool) : (setFlag b s).I = s.I := rfl
@[simp] theorem setFlag_pc (b : Bool) : (setFlag b s).pc = s.pc := rfl
@[simp] theorem setFlag_DT (b : Bool) : (setFlag b s).DT = s.DT := rfl
@[simp] theorem setFlag_ST (b : Bool) : (setFlag b s).ST = s.ST := rfl
@[simp] theorem setFlag_stack (b : Bool) : (setFlag b s).stack = s.stack := rfl
@[simp] theorem setFlag_sp (b : Bool) : (setFlag b s).sp = s.sp := rfl
@[simp] theorem setFlag_mem (b : Bool) : (setFlag b s).mem = s.mem := rfl
@[simp] theorem setFlag_fb (b : Bool) : (setFlag b s).fb = s.fb := rfl
@[simp] theorem setFlag_keys (b : Bool) : (setFlag b s).keys = s.keys := rfl
@[simp] theorem setFlag_fault (b : Bool) : (setFlag b s).fault = s.fault := rfl
@[simp] theorem setFlag_rndIn (b : Bool) : (setFlag b s).rndIn = s.rndIn := rfl
@[simp] theorem setFlag_draws (b : Bool) : (setFlag b s).draws = s.draws := rfl

/-! `setVUpTo` -/

@[simp] theorem setVUpTo_V (bs : List Byte) : (setVUpTo bs s).V = setVRun s.V 0 bs := rfl
@[simp] theorem setVUpTo_I (bs : List Byte) : (setVUpTo bs s).I = s.I := rfl
@[simp] theorem setVUpTo_pc (bs : List Byte) : (setVUpTo bs s).pc = s.pc := rfl
@[simp] theorem setVUpTo_DT (bs : List Byte) : (setVUpTo bs s).DT = s.DT := rfl
@[simp] theorem setVUpTo_ST (bs : List Byte) : (setVUpTo bs s).ST = s.ST := rfl
@[simp] theorem setVUpTo_stack (bs : List Byte) : (setVUpTo bs s).stack = s.stack := rfl
@[simp] theorem setVUpTo_sp (bs : List Byte) : (setVUpTo bs s).sp = s.sp := rfl
@[simp] theorem setVUpTo_mem (bs : List Byte) : (setVUpTo bs s).mem = s.mem := rfl
@[simp] theorem setVUpTo_fb (bs : List Byte) : (setVUpTo bs s).fb = s.fb := rfl
@[simp] theorem setVUpTo_keys (bs : List Byte) : (setVUpTo bs s).keys = s.keys := rfl
@[simp] theorem setVUpTo_fault (bs : List Byte) : (setVUpTo bs s).fault = s.fault := rfl
@[simp] theorem setVUpTo_rndIn (bs : List Byte) : (setVUpTo bs s).rndIn = s.rndIn := rfl
@[simp] theorem setVUpTo_draws (bs : List Byte) : (setVUpTo bs s).draws = s.draws := rfl

/-! `setI` -/

@[simp] theorem setI_V (v : Word) : (setI v s).V = s.V := rfl
@[simp] theorem setI_I (v : Word) : (setI v s).I = v := rfl
@[simp] theorem setI_pc (v : Word) : (setI v s).pc = s.pc := rfl
@[simp] theorem setI_DT (v : Word) : (setI v s).DT = s.DT := rfl
@[simp] theorem setI_ST (v : Word) : (setI v s).ST = s.ST := rfl
@[simp] theorem setI_stack (v : Word) : (setI v s).stack = s.stack := rfl
@[simp] theorem setI_sp (v : Word) : (setI v s).sp = s.sp := rfl
@[simp] theorem setI_mem (v : Word) : (setI v s).mem = s.mem := rfl
@[simp] theorem setI_fb (v : Word) : (setI v s).fb = s.fb := rfl
@[simp] theorem setI_keys (v : Word) : (setI v s).keys = s.keys := rfl
@[simp] theorem setI_fault (v : Word) : (setI v s).fault = s.fault := rfl
@[simp] theorem setI_rndIn (v : Word) : (setI v s).rndIn = s.rndIn := rfl
@[simp] theorem setI_draws (v : Word) : (setI v s).draws = s.draws := rfl

@[simp] theorem getV_setI (v : Word) (y : Nibble) : getV (setI v s) y = getV s y := rfl

/-! `setDT` -/

@[simp] theorem setDT_V (v : Byte) : (setDT v s).V = s.V := rfl
@[simp] theorem setDT_I (v : Byte) : (setDT v s).I = s.I := rfl
@[simp] theorem setDT_pc (v : Byte) : (setDT v s).pc = s.pc := rfl
@[simp] theorem setDT_DT (v : Byte) : (setDT v s).DT = v := rfl
@[simp] theorem setDT_ST (v : Byte) : (setDT v s).ST = s.ST := rfl
@[simp] theorem setDT_stack (v : Byte) : (setDT v s).stack = s.stack := rfl
@[simp] theorem setDT_sp (v : Byte) : (setDT v s).sp = s.sp := rfl
@[simp] theorem setDT_mem (v : Byte) : (setDT v s).mem = s.mem := rfl
@[simp] theorem setDT_fb (v : Byte) : (setDT v s).fb = s.fb := rfl
@[simp] theorem setDT_keys (v : Byte) : (setDT v s).keys = s.keys := rfl
@[simp] theorem setDT_fault (v : Byte) : (setDT v s).fault = s.fault := rfl
@[simp] theorem setDT_rndIn (v : Byte) : (setDT v s).rndIn = s.rndIn := rfl
@[simp] theorem setDT_draws (v : Byte) : (setDT v s).draws = s.draws := rfl

@[simp] theorem getV_setDT (v : Byte) (y : Nibble) : getV (setDT v s) y = getV s y := rfl

/-! `setST` -/

@[simp] theorem setST_V (v : Byte) : (setST v s).V = s.V := rfl
@[simp] theorem setST_I (v : Byte) : (setST v s).I = s.I := rfl
@[simp] theorem setST_pc (v : Byte) : (setST v s).pc = s.pc := rfl
@[simp] theorem setST_DT (v : Byte) : (setST v s).DT = s.DT := rfl
@[simp] theorem setST_ST (v : Byte) : (setST v s).ST = v := rfl
@[simp] theorem setST_stack (v : Byte) : (setST v s).stack = s.stack := rfl
@[simp] theorem setST_sp (v : Byte) : (setST v s).sp = s.sp := rfl
@[simp] theorem setST_mem (v : Byte) : (setST v s).mem = s.mem := rfl
@[simp] theorem setST_fb (v : Byte) : (setST v s).fb = s.fb := rfl
@[simp] theorem setST_keys (v : Byte) : (setST v s).keys = s.keys := rfl
@[simp] theorem setST_fault (v : Byte) : (setST v s).fault = s.fault := rfl
@[simp] theorem setST_rndIn (v : Byte) : (setST v s).rndIn = s.rndIn := rfl
@[simp] theorem setST_draws (v : Byte) : (setST v s).draws = s.draws := rfl

@[simp] theorem getV_setST (v : Byte) (y : Nibble) : getV (setST v s) y = getV s y := rfl

/-! `setMem` -/

@[simp] theorem setMem_V (m : Memory) : (setMem m s).V = s.V := rfl
@[simp] theorem setMem_I (m : Memory) : (setMem m s).I = s.I := rfl
@[simp] theorem setMem_pc (m : Memory) : (setMem m s).pc = s.pc := rfl
@[simp] theorem setMem_DT (m : Memory) : (setMem m s).DT = s.DT := rfl
@[simp] theorem setMem_ST (m : Memory) : (setMem m s).ST = s.ST := rfl
@[simp] theorem setMem_stack (m : Memory) : (setMem m s).stack = s.stack := rfl
@[simp] theorem setMem_sp (m : Memory) : (setMem m s).sp = s.sp := rfl
@[simp] theorem setMem_mem (m : Memory) : (setMem m s).mem = m := rfl
@[simp] theorem setMem_fb (m : Memory) : (setMem m s).fb = s.fb := rfl
@[simp] theorem setMem_keys (m : Memory) : (setMem m s).keys = s.keys := rfl
@[simp] theorem setMem_fault (m : Memory) : (setMem m s).fault = s.fault := rfl
@[simp] theorem setMem_rndIn (m : Memory) : (setMem m s).rndIn = s.rndIn := rfl
@[simp] theorem setMem_draws (m : Memory) : (setMem m s).draws = s.draws := rfl

@[simp] theorem getV_setMem (m : Memory) (y : Nibble) : getV (setMem m s) y = getV s y := rfl

/-! `setFb` -/

@[simp] theorem setFb_V (f : Framebuffer) : (setFb f s).V = s.V := rfl
@[simp] theorem setFb_I (f : Framebuffer) : (setFb f s).I = s.I := rfl
@[simp] theorem setFb_pc (f : Framebuffer) : (setFb f s).pc = s.pc := rfl
@[simp] theorem setFb_DT (f : Framebuffer) : (setFb f s).DT = s.DT := rfl
@[simp] theorem setFb_ST (f : Framebuffer) : (setFb f s).ST = s.ST := rfl
@[simp] theorem setFb_stack (f : Framebuffer) : (setFb f s).stack = s.stack := rfl
@[simp] theorem setFb_sp (f : Framebuffer) : (setFb f s).sp = s.sp := rfl
@[simp] theorem setFb_mem (f : Framebuffer) : (setFb f s).mem = s.mem := rfl
@[simp] theorem setFb_fb (f : Framebuffer) : (setFb f s).fb = f := rfl
@[simp] theorem setFb_keys (f : Framebuffer) : (setFb f s).keys = s.keys := rfl
@[simp] theorem setFb_fault (f : Framebuffer) : (setFb f s).fault = s.fault := rfl
@[simp] theorem setFb_rndIn (f : Framebuffer) : (setFb f s).rndIn = s.rndIn := rfl
@[simp] theorem setFb_draws (f : Framebuffer) : (setFb f s).draws = s.draws := rfl

@[simp] theorem getV_setFb (f : Framebuffer) (y : Nibble) : getV (setFb f s) y = getV s y := rfl

/-! `setPc` -/

@[simp] theorem setPc_V (v : Word) : (setPc v s).V = s.V := rfl
@[simp] theorem setPc_I (v : Word) : (setPc v s).I = s.I := rfl
@[simp] theorem setPc_pc (v : Word) : (setPc v s).pc = v := rfl
@[simp] theorem setPc_DT (v : Word) : (setPc v s).DT = s.DT := rfl
@[simp] theorem setPc_ST (v : Word) : (setPc v s).ST = s.ST := rfl
@[simp] theorem setPc_stack (v : Word) : (setPc v s).stack = s.stack := rfl
@[simp] theorem setPc_sp (v : Word) : (setPc v s).sp = s.sp := rfl
@[simp] theorem setPc_mem (v : Word) : (setPc v s).mem = s.mem := rfl
@[simp] theorem setPc_fb (v : Word) : (setPc v s).fb = s.fb := rfl
@[simp] theorem setPc_keys (v : Word) : (setPc v s).keys = s.keys := rfl
@[simp] theorem setPc_fault (v : Word) : (setPc v s).fault = s.fault := rfl
@[simp] theorem setPc_rndIn (v : Word) : (setPc v s).rndIn = s.rndIn := rfl
@[simp] theorem setPc_draws (v : Word) : (setPc v s).draws = s.draws := rfl

@[simp] theorem getV_setPc (v : Word) (y : Nibble) : getV (setPc v s) y = getV s y := rfl

/-! `advance` -/

@[simp] theorem advance_V : (advance s).V = s.V := rfl
@[simp] theorem advance_I : (advance s).I = s.I := rfl
@[simp] theorem advance_pc : (advance s).pc = s.pc + 2 := rfl
@[simp] theorem advance_DT : (advance s).DT = s.DT := rfl
@[simp] theorem advance_ST : (advance s).ST = s.ST := rfl
@[simp] theorem advance_stack : (advance s).stack = s.stack := rfl
@[simp] theorem advance_sp : (advance s).sp = s.sp := rfl
@[simp] theorem advance_mem : (advance s).mem = s.mem := rfl
@[simp] theorem advance_fb : (advance s).fb = s.fb := rfl
@[simp] theorem advance_keys : (advance s).keys = s.keys := rfl
@[simp] theorem advance_fault : (advance s).fault = s.fault := rfl
@[simp] theorem advance_rndIn : (advance s).rndIn = s.rndIn := rfl
@[simp] theorem advance_draws : (advance s).draws = s.draws := rfl

@[simp] theorem getV_advance (y : Nibble) : getV (advance s) y = getV s y := rfl

/-! `skipIf` -/

@[simp] theorem skipIf_V (c : Bool) : (skipIf c s).V = s.V := rfl
@[simp] theorem skipIf_I (c : Bool) : (skipIf c s).I = s.I := rfl
@[simp] theorem skipIf_pc (c : Bool) : (skipIf c s).pc = if c then s.pc + 4 else s.pc + 2 := rfl
@[simp] theorem skipIf_DT (c : Bool) : (skipIf c s).DT = s.DT := rfl
@[simp] theorem skipIf_ST (c : Bool) : (skipIf c s).ST = s.ST := rfl
@[simp] theorem skipIf_stack (c : Bool) : (skipIf c s).stack = s.stack := rfl
@[simp] theorem skipIf_sp (c : Bool) : (skipIf c s).sp = s.sp := rfl
@[simp] theorem skipIf_mem (c : Bool) : (skipIf c s).mem = s.mem := rfl
@[simp] theorem skipIf_fb (c : Bool) : (skipIf c s).fb = s.fb := rfl
@[simp] theorem skipIf_keys (c : Bool) : (skipIf c s).keys = s.keys := rfl
@[simp] theorem skipIf_fault (c : Bool) : (skipIf c s).fault = s.fault := rfl
@[simp] theorem skipIf_rndIn (c : Bool) : (skipIf c s).rndIn = s.rndIn := rfl
@[simp] theorem skipIf_draws (c : Bool) : (skipIf c s).draws = s.draws := rfl

@[simp] theorem getV_skipIf (c : Bool) (y : Nibble) : getV (skipIf c s) y = getV s y := rfl

/-! `jump` -/

@[simp] theorem jump_V (nnn : Addr) : (jump nnn s).V = s.V := rfl
@[simp] theorem jump_I (nnn : Addr) : (jump nnn s).I = s.I := rfl
@[simp] theorem jump_pc (nnn : Addr) : (jump nnn s).pc = nnn.setWidth 16 := rfl
@[simp] theorem jump_DT (nnn : Addr) : (jump nnn s).DT = s.DT := rfl
@[simp] theorem jump_ST (nnn : Addr) : (jump nnn s).ST = s.ST := rfl
@[simp] theorem jump_stack (nnn : Addr) : (jump nnn s).stack = s.stack := rfl
@[simp] theorem jump_sp (nnn : Addr) : (jump nnn s).sp = s.sp := rfl
@[simp] theorem jump_mem (nnn : Addr) : (jump nnn s).mem = s.mem := rfl
@[simp] theorem jump_fb (nnn : Addr) : (jump nnn s).fb = s.fb := rfl
@[simp] theorem jump_keys (nnn : Addr) : (jump nnn s).keys = s.keys := rfl
@[simp] theorem jump_fault (nnn : Addr) : (jump nnn s).fault = s.fault := rfl
@[simp] theorem jump_rndIn (nnn : Addr) : (jump nnn s).rndIn = s.rndIn := rfl
@[simp] theorem jump_draws (nnn : Addr) : (jump nnn s).draws = s.draws := rfl

@[simp] theorem getV_jump (nnn : Addr) (y : Nibble) : getV (jump nnn s) y = getV s y := rfl

/-! `tickTimers` -/

@[simp] theorem tickTimers_V : (tickTimers s).V = s.V := rfl
@[simp] theorem tickTimers_I : (tickTimers s).I = s.I := rfl
@[simp] theorem tickTimers_pc : (tickTimers s).pc = s.pc := rfl
@[simp] theorem tickTimers_DT : (tickTimers s).DT = timerDown s.DT := rfl
@[simp] theorem tickTimers_ST : (tickTimers s).ST = timerDown s.ST := rfl
@[simp] theorem tickTimers_stack : (tickTimers s).stack = s.stack := rfl
@[simp] theorem tickTimers_sp : (tickTimers s).sp = s.sp := rfl
@[simp] theorem tickTimers_mem : (tickTimers s).mem = s.mem := rfl
@[simp] theorem tickTimers_fb : (tickTimers s).fb = s.fb := rfl
@[simp] theorem tickTimers_keys : (tickTimers s).keys = s.keys := rfl
@[simp] theorem tickTimers_fault : (tickTimers s).fault = s.fault := rfl
@[simp] theorem tickTimers_rndIn : (tickTimers s).rndIn = s.rndIn := rfl
@[simp] theorem tickTimers_draws : (tickTimers s).draws = s.draws := rfl

@[simp] theorem getV_tickTimers (y : Nibble) : getV (tickTimers s) y = getV s y := rfl

/-! `drawRnd` -/

@[simp] theorem drawRnd_V : (drawRnd s).V = s.V := rfl
@[simp] theorem drawRnd_I : (drawRnd s).I = s.I := rfl
@[simp] theorem drawRnd_pc : (drawRnd s).pc = s.pc := rfl
@[simp] theorem drawRnd_DT : (drawRnd s).DT = s.DT := rfl
@[simp] theorem drawRnd_ST : (drawRnd s).ST = s.ST := rfl
@[simp] theorem drawRnd_stack : (drawRnd s).stack = s.stack := rfl
@[simp] theorem drawRnd_sp : (drawRnd s).sp = s.sp := rfl
@[simp] theorem drawRnd_mem : (drawRnd s).mem = s.mem := rfl
@[simp] theorem drawRnd_fb : (drawRnd s).fb = s.fb := rfl
@[simp] theorem drawRnd_keys : (drawRnd s).keys = s.keys := rfl
@[simp] theorem drawRnd_fault : (drawRnd s).fault = s.fault := rfl
@[simp] theorem drawRnd_rndIn : (drawRnd s).rndIn = s.rndIn.tail := rfl
@[simp] theorem drawRnd_draws : (drawRnd s).draws = s.draws + 1 := rfl

@[simp] theorem getV_drawRnd (y : Nibble) : getV (drawRnd s) y = getV s y := rfl

/-! Registers after a register write (00_scope.md R12). -/

theorem getV_setV (x : Nibble) (v : Byte) (y : Nibble) :
    getV (setV x v s) y = if x = y then v else getV s y := by
  simp only [getV, setV, Vector.getElem_set, BitVec.toNat_inj]

@[simp] theorem getV_setV_same (x : Nibble) (v : Byte) : getV (setV x v s) x = v := by
  simp [getV_setV]

theorem getV_setV_other {x y : Nibble} (h : x ≠ y) (v : Byte) : getV (setV x v s) y = getV s y := by
  simp [getV_setV, h]

theorem getV_setFlag (b : Bool) (y : Nibble) :
    getV (setFlag b s) y = if flagReg = y then (if b then 1 else 0) else getV s y :=
  getV_setV s flagReg _ y

@[simp] theorem setVRun_getElem (V : Vector Byte 16) (i : Nat) (bs : List Byte) (j : Nat) (hj : j < 16) :
    (setVRun V i bs)[j] = if h : i ≤ j ∧ j - i < bs.length then bs[j - i]'h.2 else V[j] := by
  induction bs generalizing V i with
  | nil => simp [setVRun]
  | cons b bs ih =>
    rw [setVRun, ih, Vector.getElem_setIfInBounds]
    by_cases h1 : i = j
    · subst h1; simp
    · by_cases h2 : i + 1 ≤ j ∧ j - (i + 1) < bs.length
      · have h3 : i ≤ j ∧ j - i < (b :: bs).length := by simp only [List.length_cons]; omega
        rw [dif_pos h2, dif_pos h3]
        have h4 : j - i = (j - (i + 1)) + 1 := by omega
        simp only [h4, List.getElem_cons_succ]
      · have h3 : ¬ (i ≤ j ∧ j - i < (b :: bs).length) := by simp only [List.length_cons]; omega
        rw [dif_neg h2, dif_neg h3, if_neg h1]

/-- The load of a run of registers (47_index_memory.md R230): registers below the length take their byte. -/
theorem getV_setVUpTo (bs : List Byte) (y : Nibble) :
    getV (setVUpTo bs s) y = if h : y.toNat < bs.length then bs[y.toNat] else getV s y := by
  simp [getV, setVUpTo]

theorem getVUpTo_length (x : Nibble) : (getVUpTo s x).length = x.toNat + 1 := by
  have := x.isLt
  simp [getVUpTo]; omega

theorem getVUpTo_getElem (x : Nibble) (j : Nat) (h : j < (getVUpTo s x).length) :
    (getVUpTo s x)[j] = getV s (BitVec.ofNat 4 j) := by
  have h1 : j < 16 := by have := x.isLt; rw [getVUpTo_length] at h; omega
  simp [getVUpTo, getV, Nat.mod_eq_of_lt h1]

/-- Taking a fault is a next state in which the latch alone differs (60_exceptions.md R244). -/
theorem raise_eq (c : Cause) : raise c s = .next { s with fault := c } := rfl

theorem halted_iff : halted s = true ↔ s.fault ≠ .none := by simp [halted]

end Sys2Proof.Machine
end

