-- ==== Sys2Proof/Laws/Operands.lean ====
section
/-! SUPPORT. The operand forms and the flags as numbers (20_memory.md R66, 44_alu.md R185). -/

namespace Sys2Proof.Machine

/-- The range check as the instruction rules write it, for an access of at least one byte. -/
theorem dataOutOfRange_succ (s : State) (k : Nat) :
    dataOutOfRange s (k + 1) = decide (0xFFF < s.I.toNat + k) := by
  simp [dataOutOfRange, Config.addrMax]

theorem dataOutOfRange_zero (s : State) : dataOutOfRange s 0 = false := by
  simp [dataOutOfRange]

/-- The smallest set key (46_keys_timers.md R214). -/
theorem lowestKey_eq_some {s : State} {k : Nat} :
    lowestKey s = some k ↔ k < 16 ∧ keySet s k = true ∧ ∀ j, j < k → keySet s j = false := by
  simp only [lowestKey, List.find?_range_eq_some]
  simp only [Bool.not_eq_true', List.mem_range]
  tauto

theorem lowestKey_eq_none {s : State} : lowestKey s = none ↔ s.keys = 0 := by
  simp only [lowestKey, List.find?_eq_none, List.mem_range, keySet]
  constructor
  · intro h
    apply BitVec.eq_of_getLsbD_eq
    intro i hi
    simpa using h i hi
  · intro h i _
    simp [h]

theorem sum9_toNat (a b : Byte) : (sum9 a b).toNat = a.toNat + b.toNat := by
  have := a.isLt
  have := b.isLt
  simp [sum9, BitVec.toNat_add]
  omega

theorem sumLow_toNat (a b : Byte) : (sumLow a b).toNat = (a.toNat + b.toNat) % 256 := by
  simp [sumLow, BitVec.extractLsb'_toNat, sum9_toNat]

theorem carryOut_eq (a b : Byte) : carryOut a b = decide (255 < a.toNat + b.toNat) := by
  have := a.isLt
  have := b.isLt
  rw [carryOut, BitVec.getLsbD, sum9_toNat, Nat.testBit_eq_decide_div_mod_eq]
  congr 1
  simp only [eq_iff_iff]
  omega

theorem glyphAddress_toNat (v : Byte) : (glyphAddress v).toNat = 5 * v.toNat := by
  have := v.isLt
  simp [glyphAddress, Config.glyphLen]
  omega

theorem decimalDigits_length (v : Byte) : (decimalDigits v).length = 3 := rfl

end Sys2Proof.Machine
end

