-- ==== Sys2Proof/Laws/Memory.lean ====
section
/-! SUPPORT. The laws of memory (20_memory.md R68): a read gives the byte written last, writes keep the canonical form,
and two canonical memories that know the same are the same data. -/

namespace Sys2Proof.Machine

theorem memKnown_erase (m : Memory) (a b : Nat) :
    memKnown (memErase m a) b = if b = a then memUnlisted b else memKnown m b := by
  induction m with
  | nil => simp [memErase, memKnown]
  | cons c m ih =>
    obtain ⟨c, v⟩ := c
    simp only [memErase] at ih ⊢
    by_cases hc : c = a
    · subst hc
      by_cases hb : b = c
      · subst hb; simpa [memKnown] using ih
      · simp [memKnown, ih, hb]
    · by_cases hb : b = a
      · subst hb
        simp [hc, memKnown, ih, Ne.symm hc]
      · by_cases hbc : b = c <;> simp [hc, hb, memKnown, ih, hbc]

theorem memKnown_insert (a : Nat) (v : Byte) (m : Memory) (h : ∀ c ∈ m, c.1 ≠ a) (b : Nat) :
    memKnown (memInsert a v m) b = if b = a then some v else memKnown m b := by
  induction m with
  | nil => simp [memInsert, memKnown]
  | cons c m ih =>
    have hm : ∀ d ∈ m, d.1 ≠ a := fun d hd => h d (List.mem_cons_of_mem _ hd)
    have hc : c.1 ≠ a := h c List.mem_cons_self
    rw [memInsert]
    split
    · rfl
    · by_cases hb : b = a
      · subst hb; simp [memKnown, ih hm, Ne.symm hc]
      · simp [memKnown, ih hm, hb]

theorem memErase_no_cell (m : Memory) (a : Nat) : ∀ c ∈ memErase m a, c.1 ≠ a := by
  intro c hc
  simpa [memErase] using (List.mem_filter.mp hc).2

/-- What is known after a write (R68). -/
theorem memKnown_write (m : Memory) (a : Nat) (v : Byte) (b : Nat) :
    memKnown (memWrite m a v) b = if b = a then some v else memKnown m b := by
  rw [memWrite]
  split
  · rename_i h
    rw [memKnown_erase]
    split
    · rename_i hb; rw [hb, h]
    · rfl
  · rw [memKnown_insert a v _ (memErase_no_cell m a), memKnown_erase]
    split <;> rfl

/-- Read after write (R68): the byte written at its address, every other address unchanged. -/
theorem memRead_write (m : Memory) (a : Nat) (v : Byte) (b : Nat) :
    memRead (memWrite m a v) b = if b = a then v else memRead m b := by
  simp only [memRead, memKnown_write]
  split <;> rfl

theorem memReadRun_length (m : Memory) (a k : Nat) : (memReadRun m a k).length = k := by
  induction k generalizing a with
  | zero => rfl
  | succ k ih => simp [memReadRun, ih]

theorem memReadRun_getElem (m : Memory) (a k i : Nat) (h : i < (memReadRun m a k).length) :
    (memReadRun m a k)[i] = memRead m (a + i) := by
  induction k generalizing a i with
  | zero => simp [memReadRun] at h
  | succ k ih =>
    cases i with
    | zero => simp [memReadRun]
    | succ i => simp only [memReadRun, List.getElem_cons_succ]; rw [ih]; congr 1; omega

/-- Reading after a run of bytes is stored (R63): the bytes at `a, a + 1, ...`, every other address unchanged. -/
theorem memRead_writeRun (m : Memory) (a : Nat) (vs : List Byte) (b : Nat) :
    memRead (memWriteRun m a vs) b = if h : a ≤ b ∧ b - a < vs.length then vs[b - a]'h.2 else memRead m b := by
  induction vs generalizing m a with
  | nil => simp [memWriteRun]
  | cons v vs ih =>
    rw [memWriteRun, ih, memRead_write]
    by_cases hb : b = a
    · subst hb; simp
    · by_cases h2 : a + 1 ≤ b ∧ b - (a + 1) < vs.length
      · have h3 : a ≤ b ∧ b - a < (v :: vs).length := by simp only [List.length_cons]; omega
        rw [dif_pos h2, dif_pos h3]
        have h4 : b - a = (b - (a + 1)) + 1 := by omega
        simp only [h4, List.getElem_cons_succ]
      · have h3 : ¬ (a ≤ b ∧ b - a < (v :: vs).length) := by simp only [List.length_cons]; omega
        rw [dif_neg h2, dif_neg h3, if_neg hb]

/-! The canonical form. -/

theorem memErase_wf {m : Memory} (h : m.wf) (a : Nat) : Memory.wf (memErase m a) :=
  ⟨h.1.filter _, fun c hc => h.2 c (List.mem_filter.mp hc).1⟩

theorem mem_memInsert (a : Nat) (v : Byte) (m : Memory) (c : Host.Cell) :
    c ∈ memInsert a v m ↔ c = (a, v) ∨ c ∈ m := by
  induction m with
  | nil => simp [memInsert]
  | cons d m ih =>
    rw [memInsert]
    split
    · simp
    · simp only [List.mem_cons, ih]; tauto

theorem memInsert_sorted (a : Nat) (v : Byte) (m : Memory) (hs : m.Pairwise fun c d => c.1 < d.1)
    (hn : ∀ c ∈ m, c.1 ≠ a) : (memInsert a v m).Pairwise fun c d => c.1 < d.1 := by
  induction m with
  | nil => simp [memInsert]
  | cons c m ih =>
    rw [List.pairwise_cons] at hs
    have hc : c.1 ≠ a := hn c List.mem_cons_self
    rw [memInsert]
    split
    · rename_i hac
      refine List.pairwise_cons.mpr ⟨fun d hd => ?_, List.pairwise_cons.mpr hs⟩
      rcases List.mem_cons.mp hd with rfl | hd
      · exact hac
      · exact Nat.lt_trans hac (hs.1 d hd)
    · refine List.pairwise_cons.mpr
        ⟨fun d hd => ?_, ih hs.2 fun d hd => hn d (List.mem_cons_of_mem _ hd)⟩
      rcases (mem_memInsert a v m d).mp hd with rfl | hd
      · show c.1 < a
        omega
      · exact hs.1 d hd

/-- A write within the address space keeps the canonical form. -/
theorem memWrite_wf {m : Memory} (h : m.wf) {a : Nat} (ha : a < Config.memSize) (v : Byte) :
    Memory.wf (memWrite m a v) := by
  rw [memWrite]
  split
  · exact memErase_wf h a
  · rename_i hv
    refine ⟨memInsert_sorted a v _ (memErase_wf h a).1 (memErase_no_cell m a), fun c hc => ?_⟩
    rcases (mem_memInsert a v _ c).mp hc with rfl | hc
    · exact ⟨ha, hv⟩
    · exact (memErase_wf h a).2 c hc

/-- Storing a run of bytes within the address space keeps the canonical form. -/
theorem memWriteRun_wf {m : Memory} (h : m.wf) {a : Nat} {vs : List Byte} (ha : a + vs.length ≤ Config.memSize) :
    Memory.wf (memWriteRun m a vs) := by
  induction vs generalizing m a with
  | nil => exact h
  | cons v vs ih =>
    rw [List.length_cons] at ha
    exact ih (memWrite_wf h (by omega) v) (by omega)

/-- A cell of a canonical memory is what memory knows of its address. -/
theorem memKnown_of_mem {m : Memory} (hs : m.Pairwise fun c d => c.1 < d.1) {c : Host.Cell} (hc : c ∈ m) :
    memKnown m c.1 = some c.2 := by
  induction m with
  | nil => cases hc
  | cons d m ih =>
    rw [List.pairwise_cons] at hs
    rcases List.mem_cons.mp hc with rfl | hc
    · simp [memKnown]
    · have := hs.1 c hc
      simp [memKnown, ih hs.2 hc, Nat.ne_of_gt this]

theorem memKnown_of_not_mem (m : Memory) (a : Nat) (h : ∀ c ∈ m, c.1 ≠ a) : memKnown m a = memUnlisted a := by
  induction m with
  | nil => rfl
  | cons d m ih =>
    rw [memKnown, if_neg (Ne.symm (h d List.mem_cons_self)), ih fun c hc => h c (List.mem_cons_of_mem _ hc)]

/-- The cells of a canonical memory are exactly what it knows beyond the unlisted contents. -/
theorem mem_iff_memKnown {m : Memory} (h : m.wf) (c : Host.Cell) :
    c ∈ m ↔ memKnown m c.1 = some c.2 ∧ memUnlisted c.1 ≠ some c.2 := by
  constructor
  · exact fun hc => ⟨memKnown_of_mem h.1 hc, (h.2 c hc).2⟩
  · rintro ⟨hk, hu⟩
    by_cases hex : ∃ d ∈ m, d.1 = c.1
    · obtain ⟨d, hd, hdc⟩ := hex
      have hdk := memKnown_of_mem h.1 hd
      rw [hdc, hk] at hdk
      have : d = c := Prod.ext hdc (Option.some.inj hdk).symm
      exact this ▸ hd
    · rw [memKnown_of_not_mem m c.1 fun d hd hdc => hex ⟨d, hd, hdc⟩] at hk
      exact absurd hk hu

/-- Equal memories are equal data. -/
theorem memory_ext {m n : Memory} (hm : m.wf) (hn : n.wf) (h : ∀ a, memKnown m a = memKnown n a) : m = n := by
  have hmem : ∀ c, c ∈ m ↔ c ∈ n := fun c => by rw [mem_iff_memKnown hm, mem_iff_memKnown hn, h]
  have irr : ∀ l : Memory, l.Pairwise (fun c d => c.1 < d.1) → l.Nodup := fun l hl =>
    hl.imp fun hlt he => absurd (congrArg Prod.fst he) (Nat.ne_of_lt hlt)
  have hp : m.Perm n := (List.perm_ext_iff_of_nodup (irr m hm.1) (irr n hn.1)).mpr hmem
  exact hp.eq_of_pairwise (fun c d _ _ h1 h2 => absurd h1 (Nat.lt_asymm h2)) hm.1 hn.1

theorem reset_mem_wf : Memory.wf State.reset.mem := by decide

end Sys2Proof.Machine
end

