-- ==== Sys2Proof/Laws/Ops.lean ====
section
/-! SUPPORT. For each shared operation, everything it can do: push, pop, fetch, the random input, the arithmetic of the
flags, and the cases of a step. -/

namespace Sys2Proof.Machine

/-! The call stack (10_state.md R27). -/

theorem push_eq_none {v : Word} {s : State} : push v s = none ↔ s.sp.val = Config.stackDepth := by
  have := s.sp.isLt
  unfold push
  split <;> simp <;> omega

/-- A push that is not rejected stores at `stack[sp]` and counts one more entry; nothing else changes. -/
theorem push_eq_some {v : Word} {s t : State} (h : push v s = some t) :
    ∃ hlt : s.sp.val < Config.stackDepth,
      t = { s with stack := s.stack.set s.sp.val v hlt, sp := ⟨s.sp.val + 1, Nat.succ_lt_succ hlt⟩ } := by
  unfold push at h
  split at h
  · rename_i hlt; exact ⟨hlt, (Option.some.inj h).symm⟩
  · cases h

theorem pop_eq_none {s : State} : pop s = none ↔ s.sp.val = 0 := by
  unfold pop
  split
  · rename_i h
    exact ⟨fun h0 => absurd h0 (Option.some_ne_none _), fun h0 => absurd h0 (Nat.ne_of_gt h)⟩
  · rename_i h
    exact ⟨fun _ => Nat.eq_zero_of_not_pos h, fun _ => rfl⟩

/-- A pop that is not rejected counts one entry less and gives the entry then named; the entry stays. -/
theorem pop_eq_some {s t : State} {v : Word} (h : pop s = some (v, t)) :
    ∃ (_ : 0 < s.sp.val) (hlt : s.sp.val - 1 < Config.stackDepth),
      v = s.stack[s.sp.val - 1]'hlt ∧ t = { s with sp := ⟨s.sp.val - 1, Nat.lt_succ_of_lt hlt⟩ } := by
  unfold pop at h
  split at h
  · rename_i hpos
    have hsp := s.sp.isLt
    have hlt : s.sp.val - 1 < Config.stackDepth := by omega
    obtain ⟨rfl, rfl⟩ := Prod.mk.inj (Option.some.inj h)
    exact ⟨hpos, hlt, rfl, rfl⟩
  · cases h

/-! Fetch (40_step_cycle.md R122). -/

theorem fetchWord_eq_none {s : State} : fetchWord s = none ↔ 0xFFE < s.pc.toNat := by
  simp [fetchWord]

theorem fetchWord_eq_some {s : State} {op : Word} :
    fetchWord s = some op ↔ s.pc.toNat ≤ 0xFFE ∧ op = memRead s.mem s.pc.toNat ++ memRead s.mem (s.pc.toNat + 1) := by
  simp only [fetchWord, memReadWord]
  split
  · simp; omega
  · simp only [Option.some.injEq]
    exact ⟨fun h => ⟨by omega, h.symm⟩, fun h => h.2.symm⟩

@[simp] theorem fetchWord_tickTimers (s : State) : fetchWord (tickTimers s) = fetchWord s := rfl

/-- What a step can do (R128): stay halted, fault at the fetch, or run the decoded instruction after the timers. -/
theorem step_cases (s : State) :
    (s.fault ≠ .none ∧ step s = .next s) ∨
    (s.fault = .none ∧ 0xFFE < s.pc.toNat ∧ step s = raise .fetchAddress (tickTimers s)) ∨
    (∃ op, s.fault = .none ∧ fetchWord s = some op ∧ step s = exec (decodeWord op) (tickTimers s)) := by
  unfold step
  by_cases h : s.fault = .none
  · right
    have hh : halted s = false := by simp [halted, h]
    simp only [hh, fetchWord_tickTimers]
    cases hf : fetchWord s with
    | none => exact .inl ⟨h, fetchWord_eq_none.mp hf, by simp⟩
    | some op => exact .inr ⟨op, h, rfl, by simp⟩
  · left
    simp [halted, h]

/-! The timers (R121). -/

theorem timerDown_toNat (t : Byte) : (timerDown t).toNat = t.toNat - 1 := by
  unfold timerDown
  split
  · rename_i h; subst h; rfl
  · rename_i h
    have : t.toNat ≠ 0 := fun h0 => h (BitVec.eq_of_toNat_eq h0)
    have := t.isLt
    rw [BitVec.toNat_sub]
    simp
    omega

/-! The random input (10_state.md R46). -/

theorem nextRnd_supplied {s : State} {b : Byte} {bs : List Byte} (h : s.rndIn = b :: bs) : nextRnd s = b := by
  simp [nextRnd, h]

theorem nextRnd_free {s : State} (h : s.rndIn = []) : nextRnd s = Config.rnd s.draws := by
  simp [nextRnd, h]

end Sys2Proof.Machine
end

