-- ==== Sys2Proof/Laws/Frame.lean ====
section
/-! SUPPORT. The frame of each shared operation (10_state.md R36), and how frames compose; a proof about an instruction
cites these instead of going through the pieces of the state again. -/

namespace Sys2Proof.Machine

theorem ChangesOnly.refl (w : Part → Prop) (s : State) : ChangesOnly w s s := by
  intro p _
  cases p <;> simp [sameAt]

theorem ChangesOnly.mono {w w' : Part → Prop} {s t : State} (h : ChangesOnly w s t) (hw : ∀ p, w p → w' p) :
    ChangesOnly w' s t := fun p hp => h p fun hwp => hp (hw p hwp)

theorem ChangesOnly.trans {w w' : Part → Prop} {s t u : State} (h : ChangesOnly w s t) (h' : ChangesOnly w' t u) :
    ChangesOnly (fun p => w p ∨ w' p) s u := by
  intro p hp
  have h1 := h p fun hw => hp (.inl hw)
  have h2 := h' p fun hw => hp (.inr hw)
  cases p <;> simp_all [sameAt]

section Ops

variable (s : State)

theorem setV_changes (x : Nibble) (v : Byte) : ChangesOnly (fun p => p = .V x) s (setV x v s) := by
  intro p hp
  cases p with
  | V r => exact getV_setV_other s (fun h => hp (by rw [h])) v
  | _ => simp [sameAt]

theorem setFlag_changes (b : Bool) : ChangesOnly (fun p => p = .V flagReg) s (setFlag b s) := setV_changes s _ _

theorem setPc_changes (v : Word) : ChangesOnly (fun p => p = .pc) s (setPc v s) := by
  intro p hp
  cases p <;> simp_all [sameAt]

theorem advance_changes : ChangesOnly (fun p => p = .pc) s (advance s) := setPc_changes s _

theorem skipIf_changes (c : Bool) : ChangesOnly (fun p => p = .pc) s (skipIf c s) := setPc_changes s _

theorem jump_changes (nnn : Addr) : ChangesOnly (fun p => p = .pc) s (jump nnn s) := setPc_changes s _

theorem setI_changes (v : Word) : ChangesOnly (fun p => p = .I) s (setI v s) := by
  intro p hp
  cases p <;> simp_all [sameAt]

theorem setDT_changes (v : Byte) : ChangesOnly (fun p => p = .DT) s (setDT v s) := by
  intro p hp
  cases p <;> simp_all [sameAt]

theorem setST_changes (v : Byte) : ChangesOnly (fun p => p = .ST) s (setST v s) := by
  intro p hp
  cases p <;> simp_all [sameAt]

theorem drawRnd_changes : ChangesOnly (fun p => p = .rnd) s (drawRnd s) := by
  intro p hp
  cases p <;> simp_all [sameAt]

theorem tickTimers_changes : ChangesOnly (fun p => p = .DT ∨ p = .ST) s (tickTimers s) := by
  intro p hp
  cases p <;> simp_all [sameAt]

/-- Registers below the length of the list are the only ones a run of loads writes. -/
theorem setVUpTo_changes (bs : List Byte) :
    ChangesOnly (fun p => ∃ r : Nibble, r.toNat < bs.length ∧ p = .V r) s (setVUpTo bs s) := by
  intro p hp
  cases p with
  | V r =>
    have hr : ¬ r.toNat < bs.length := fun h => hp ⟨r, h, rfl⟩
    simp [sameAt, getV_setVUpTo, hr]
  | _ => simp [sameAt]

/-- The bytes stored to are the only ones a run of stores changes. -/
theorem storeRun_changes (a : Nat) (vs : List Byte) :
    ChangesOnly (fun p => ∃ b, a ≤ b ∧ b < a + vs.length ∧ p = .mem b) s (setMem (memWriteRun s.mem a vs) s) := by
  intro p hp
  cases p with
  | mem b =>
    have hb : ¬ (a ≤ b ∧ b - a < vs.length) := fun h => hp ⟨b, h.1, by omega, rfl⟩
    simp only [sameAt, setMem_mem, memRead_writeRun, dif_neg hb]
  | _ => simp [sameAt]

/-- A framebuffer that differs only in the cells of `c` is a change of those cells. -/
theorem setFb_changes (f : Framebuffer) (c : Nat → Prop) (h : ∀ i, ¬ c i → cell f i = cell s.fb i) :
    ChangesOnly (fun p => ∃ i, c i ∧ p = .cell i) s (setFb f s) := by
  intro p hp
  cases p with
  | cell i => exact h i fun hc => hp ⟨i, hc, rfl⟩
  | _ => simp [sameAt]

end Ops

end Sys2Proof.Machine
end

