-- ==== Sys2Proof/Laws/PerInstr.lean ====
section
/-! SUPPORT. For each instruction: its word is taken by its own row of the opcode table (30_encoding.md R96). -/

namespace Sys2Proof

/-! The bits a mask keeps of each format. -/

theorem formatA_mask (top : Nibble) (nnn : Addr) : formatA top nnn &&& 0xF000 = formatA top 0 := by
  apply BitVec.eq_of_getLsbD_eq
  intro i hi
  simp only [formatA, BitVec.getLsbD_and, BitVec.getLsbD_append]
  interval_cases i <;> simp

theorem formatXK_mask_top (top x : Nibble) (kk : Byte) : formatXK top x kk &&& 0xF000 = formatXK top 0 0 := by
  apply BitVec.eq_of_getLsbD_eq
  intro i hi
  simp only [formatXK, BitVec.getLsbD_and, BitVec.getLsbD_append]
  interval_cases i <;> simp

theorem formatXK_mask_kk (top x : Nibble) (kk : Byte) : formatXK top x kk &&& 0xF0FF = formatXK top 0 kk := by
  apply BitVec.eq_of_getLsbD_eq
  intro i hi
  simp only [formatXK, BitVec.getLsbD_and, BitVec.getLsbD_append]
  interval_cases i <;> simp

theorem formatXY_mask_top (top x y n : Nibble) : formatXY top x y n &&& 0xF000 = formatXY top 0 0 0 := by
  apply BitVec.eq_of_getLsbD_eq
  intro i hi
  simp only [formatXY, BitVec.getLsbD_and, BitVec.getLsbD_append]
  interval_cases i <;> simp

theorem formatXY_mask_n (top x y n : Nibble) : formatXY top x y n &&& 0xF00F = formatXY top 0 0 n := by
  apply BitVec.eq_of_getLsbD_eq
  intro i hi
  simp only [formatXY, BitVec.getLsbD_and, BitVec.getLsbD_append]
  interval_cases i <;> simp

end Sys2Proof

namespace Sys2Proof.Laws.Encodes

/-- The word of an instruction is taken by the row of R96 that the instruction stands for. -/
def Statement (i : Instr) : Prop := (opcodeRows[i.rowIndex]?.map fun r => r.takes (encode i)) = some true

theorem of_row {i : Instr} (r : OpcodeRow) (hr : opcodeRows[i.rowIndex]? = some r)
    (h : encode i &&& r.mask = r.pattern) : Statement i := by
  simp [Statement, hr, OpcodeRow.takes, h]

theorem cls : Statement .cls :=
  of_row ⟨0xFFFF, 0x00E0⟩ rfl rfl

theorem ret : Statement .ret :=
  of_row ⟨0xFFFF, 0x00EE⟩ rfl rfl

theorem sysNnn (nnn : Addr) : Statement (.sysNnn nnn) :=
  of_row ⟨0xF000, 0x0000⟩ rfl ((formatA_mask ..).trans (by decide))

theorem jpNnn (nnn : Addr) : Statement (.jpNnn nnn) :=
  of_row ⟨0xF000, 0x1000⟩ rfl ((formatA_mask ..).trans (by decide))

theorem callNnn (nnn : Addr) : Statement (.callNnn nnn) :=
  of_row ⟨0xF000, 0x2000⟩ rfl ((formatA_mask ..).trans (by decide))

theorem seVxKk (x : Nibble) (kk : Byte) : Statement (.seVxKk x kk) :=
  of_row ⟨0xF000, 0x3000⟩ rfl ((formatXK_mask_top ..).trans (by decide))

theorem sneVxKk (x : Nibble) (kk : Byte) : Statement (.sneVxKk x kk) :=
  of_row ⟨0xF000, 0x4000⟩ rfl ((formatXK_mask_top ..).trans (by decide))

theorem seVxVy (x y : Nibble) : Statement (.seVxVy x y) :=
  of_row ⟨0xF00F, 0x5000⟩ rfl ((formatXY_mask_n ..).trans (by decide))

theorem ldVxKk (x : Nibble) (kk : Byte) : Statement (.ldVxKk x kk) :=
  of_row ⟨0xF000, 0x6000⟩ rfl ((formatXK_mask_top ..).trans (by decide))

theorem addVxKk (x : Nibble) (kk : Byte) : Statement (.addVxKk x kk) :=
  of_row ⟨0xF000, 0x7000⟩ rfl ((formatXK_mask_top ..).trans (by decide))

theorem ldVxVy (x y : Nibble) : Statement (.ldVxVy x y) :=
  of_row ⟨0xF00F, 0x8000⟩ rfl ((formatXY_mask_n ..).trans (by decide))

theorem orVxVy (x y : Nibble) : Statement (.orVxVy x y) :=
  of_row ⟨0xF00F, 0x8001⟩ rfl ((formatXY_mask_n ..).trans (by decide))

theorem andVxVy (x y : Nibble) : Statement (.andVxVy x y) :=
  of_row ⟨0xF00F, 0x8002⟩ rfl ((formatXY_mask_n ..).trans (by decide))

theorem xorVxVy (x y : Nibble) : Statement (.xorVxVy x y) :=
  of_row ⟨0xF00F, 0x8003⟩ rfl ((formatXY_mask_n ..).trans (by decide))

theorem addVxVy (x y : Nibble) : Statement (.addVxVy x y) :=
  of_row ⟨0xF00F, 0x8004⟩ rfl ((formatXY_mask_n ..).trans (by decide))

theorem subVxVy (x y : Nibble) : Statement (.subVxVy x y) :=
  of_row ⟨0xF00F, 0x8005⟩ rfl ((formatXY_mask_n ..).trans (by decide))

theorem shrVx (x y : Nibble) : Statement (.shrVx x y) :=
  of_row ⟨0xF00F, 0x8006⟩ rfl ((formatXY_mask_n ..).trans (by decide))

theorem subnVxVy (x y : Nibble) : Statement (.subnVxVy x y) :=
  of_row ⟨0xF00F, 0x8007⟩ rfl ((formatXY_mask_n ..).trans (by decide))

theorem shlVx (x y : Nibble) : Statement (.shlVx x y) :=
  of_row ⟨0xF00F, 0x800E⟩ rfl ((formatXY_mask_n ..).trans (by decide))

theorem sneVxVy (x y : Nibble) : Statement (.sneVxVy x y) :=
  of_row ⟨0xF00F, 0x9000⟩ rfl ((formatXY_mask_n ..).trans (by decide))

theorem ldINnn (nnn : Addr) : Statement (.ldINnn nnn) :=
  of_row ⟨0xF000, 0xA000⟩ rfl ((formatA_mask ..).trans (by decide))

theorem jpV0Nnn (nnn : Addr) : Statement (.jpV0Nnn nnn) :=
  of_row ⟨0xF000, 0xB000⟩ rfl ((formatA_mask ..).trans (by decide))

theorem rndVxKk (x : Nibble) (kk : Byte) : Statement (.rndVxKk x kk) :=
  of_row ⟨0xF000, 0xC000⟩ rfl ((formatXK_mask_top ..).trans (by decide))

theorem drwVxVyN (x y n : Nibble) : Statement (.drwVxVyN x y n) :=
  of_row ⟨0xF000, 0xD000⟩ rfl ((formatXY_mask_top ..).trans (by decide))

theorem skpVx (x : Nibble) : Statement (.skpVx x) :=
  of_row ⟨0xF0FF, 0xE09E⟩ rfl ((formatXK_mask_kk ..).trans (by decide))

theorem sknpVx (x : Nibble) : Statement (.sknpVx x) :=
  of_row ⟨0xF0FF, 0xE0A1⟩ rfl ((formatXK_mask_kk ..).trans (by decide))

theorem ldVxDt (x : Nibble) : Statement (.ldVxDt x) :=
  of_row ⟨0xF0FF, 0xF007⟩ rfl ((formatXK_mask_kk ..).trans (by decide))

theorem ldVxK (x : Nibble) : Statement (.ldVxK x) :=
  of_row ⟨0xF0FF, 0xF00A⟩ rfl ((formatXK_mask_kk ..).trans (by decide))

theorem ldDtVx (x : Nibble) : Statement (.ldDtVx x) :=
  of_row ⟨0xF0FF, 0xF015⟩ rfl ((formatXK_mask_kk ..).trans (by decide))

theorem ldStVx (x : Nibble) : Statement (.ldStVx x) :=
  of_row ⟨0xF0FF, 0xF018⟩ rfl ((formatXK_mask_kk ..).trans (by decide))

theorem addIVx (x : Nibble) : Statement (.addIVx x) :=
  of_row ⟨0xF0FF, 0xF01E⟩ rfl ((formatXK_mask_kk ..).trans (by decide))

theorem ldFVx (x : Nibble) : Statement (.ldFVx x) :=
  of_row ⟨0xF0FF, 0xF029⟩ rfl ((formatXK_mask_kk ..).trans (by decide))

theorem ldBVx (x : Nibble) : Statement (.ldBVx x) :=
  of_row ⟨0xF0FF, 0xF033⟩ rfl ((formatXK_mask_kk ..).trans (by decide))

theorem ldMemVx (x : Nibble) : Statement (.ldMemVx x) :=
  of_row ⟨0xF0FF, 0xF055⟩ rfl ((formatXK_mask_kk ..).trans (by decide))

theorem ldVxMem (x : Nibble) : Statement (.ldVxMem x) :=
  of_row ⟨0xF0FF, 0xF065⟩ rfl ((formatXK_mask_kk ..).trans (by decide))

theorem unknown (op : Word) : Statement (.unknown op) :=
  of_row ⟨0x0000, 0x0000⟩ rfl BitVec.and_zero

end Sys2Proof.Laws.Encodes
end

