-- ==== Sys2Proof/Laws/Step.lean ====
section
/-! SUPPORT. The host's placing of one instruction: the next step runs exactly it. -/

namespace Sys2Proof.Machine

theorem highByte_append_lowByte (op : Word) : highByte op ++ lowByte op = op := by
  apply BitVec.eq_of_getLsbD_eq
  intro i hi
  rw [BitVec.getLsbD_append]
  split
  · rename_i h
    simp [lowByte, h]
  · have h8 : i - 8 < 8 := by omega
    have hi8 : 8 + (i - 8) = i := by omega
    simp [highByte, h8, hi8]

/-- The word placed is the word fetched. -/
theorem fetchWord_placeInstr (hi lo : Byte) (s : State) : fetchWord (placeInstr hi lo s) = some (hi ++ lo) := by
  rw [fetchWord_eq_some]
  have hp : (placeInstr hi lo s).pc.toNat ≤ 0xFFE := by
    simp only [placeInstr]
    split
    · decide
    · omega
  refine ⟨hp, ?_⟩
  simp [placeInstr, memRead_writeRun]

/-- Whatever the state, the step after `withFetchWord` runs the instruction placed, after the timers. -/
theorem step_withFetchWord (s : State) (nbits w : Nat) :
    step (s.withFetchWord nbits w) = exec (decodeWord (tableWord nbits w)) (tickTimers (s.withFetchWord nbits w)) := by
  have hh : halted (s.withFetchWord nbits w) = false := by
    simp [halted, State.withFetchWord, placeInstr]
  have hf : fetchWord (tickTimers (s.withFetchWord nbits w)) = some (tableWord nbits w) := by
    rw [fetchWord_tickTimers, State.withFetchWord, fetchWord_placeInstr, highByte_append_lowByte]
  simp [step, hh, hf]

end Sys2Proof.Machine
end

