-- ==== Sys2Proof/Tests/Slice0.lean ====
section
/-! SUPPORT. Tests by hand from the spec: words written out from the encodings (30_encoding.md R96, R101), the step
vectors of 95_test_vectors.md (the T and S numbers), ill-formed instructions, and a witness for the hypotheses of every
statement. -/

namespace Sys2Proof.Tests

open Sys2Proof.Machine

/-! Decoding: the bits of each word from the `encoding` strings of the opcode table. -/

theorem test_decode_family_0 :
    decodeWord 0b0000000011100000 = .cls ∧ decodeWord 0b0000000011101110 = .ret ∧
    decodeWord 0b0000001100000000 = .sysNnn 0x300 ∧ decodeWord 0x0000 = .sysNnn 0x000 ∧
    decodeWord 0x00E1 = .sysNnn 0x0E1 := by decide

theorem test_decode_jumps :
    decodeWord 0b0001101010111100 = .jpNnn 0xABC ∧ decodeWord 0b0010001000001010 = .callNnn 0x20A ∧
    decodeWord 0b1011111111111111 = .jpV0Nnn 0xFFF := by decide

theorem test_decode_skips :
    decodeWord 0b0011111100000001 = .seVxKk 0xF 0x01 ∧ decodeWord 0b0100001100010001 = .sneVxKk 3 0x11 ∧
    decodeWord 0b0101000100100000 = .seVxVy 1 2 ∧ decodeWord 0b1001000100100000 = .sneVxVy 1 2 := by decide

theorem test_decode_constants :
    decodeWord 0b0110101010011101 = .ldVxKk 0xA 0x9D ∧ decodeWord 0b0111000100000010 = .addVxKk 1 0x02 ∧
    decodeWord 0b1010001100000000 = .ldINnn 0x300 ∧ decodeWord 0b1100001100001111 = .rndVxKk 3 0x0F := by decide

theorem test_decode_family_8 :
    decodeWord 0b1000000100100000 = .ldVxVy 1 2 ∧ decodeWord 0b1000000100100001 = .orVxVy 1 2 ∧
    decodeWord 0b1000000100100010 = .andVxVy 1 2 ∧ decodeWord 0b1000000100100011 = .xorVxVy 1 2 ∧
    decodeWord 0b1000000100100100 = .addVxVy 1 2 ∧ decodeWord 0b1000000100100101 = .subVxVy 1 2 ∧
    decodeWord 0b1000001000110110 = .shrVx 2 3 ∧ decodeWord 0b1000000100100111 = .subnVxVy 1 2 ∧
    decodeWord 0b1000001000111110 = .shlVx 2 3 := by decide

theorem test_decode_draw : decodeWord 0b1101000000010010 = .drwVxVyN 0 1 2 := by decide

theorem test_decode_keys_timers :
    decodeWord 0b1110001010011110 = .skpVx 2 ∧ decodeWord 0b1110001010100001 = .sknpVx 2 ∧
    decodeWord 0b1111001100000111 = .ldVxDt 3 ∧ decodeWord 0b1111010100001010 = .ldVxK 5 ∧
    decodeWord 0b1111000000010101 = .ldDtVx 0 ∧ decodeWord 0b1111000100011000 = .ldStVx 1 := by decide

theorem test_decode_index_memory :
    decodeWord 0b1111001000011110 = .addIVx 2 ∧ decodeWord 0b1111000000101001 = .ldFVx 0 ∧
    decodeWord 0b1111001100110011 = .ldBVx 3 ∧ decodeWord 0b1111000101010101 = .ldMemVx 1 ∧
    decodeWord 0b1111001001100101 = .ldVxMem 2 := by decide

/-- T1.7 to T1.13: the unknown words. -/
theorem test_decode_unknown :
    decodeWord 0x5121 = .unknown 0x5121 ∧ decodeWord 0x9121 = .unknown 0x9121 ∧ decodeWord 0xE19F = .unknown 0xE19F ∧
    decodeWord 0xF000 = .unknown 0xF000 ∧ decodeWord 0xF075 = .unknown 0xF075 ∧ decodeWord 0x8AB8 = .unknown 0x8AB8 ∧
    decodeWord 0x800F = .unknown 0x800F := by decide

theorem test_decode_too_short :
    decode [] = .error .fewerThanTwoBytes ∧ decode [0x6A] = .error .fewerThanTwoBytes ∧
    decode [0x6A, 0x9D, 0x12] = .ok (.ldVxKk 0xA 0x9D, [0x12]) := ⟨rfl, rfl, rfl⟩

theorem test_table_word : decodeTableWord 16 0x6A9D = some (.ldVxKk 0xA 0x9D) := by decide

/-! Well-formedness: one ill-formed term for each check. -/

theorem test_ill_formed_sys_cls : (Instr.sysNnn 0x0E0).wellFormed = false := by decide
theorem test_ill_formed_sys_ret : (Instr.sysNnn 0x0EE).wellFormed = false := by decide
theorem test_ill_formed_unknown_known_word : (Instr.unknown 0x6A9D).wellFormed = false := by decide
theorem test_ill_formed_unknown_family_8 : (Instr.unknown 0x812E).wellFormed = false := by decide
theorem test_ill_formed_unknown_family_F : (Instr.unknown 0xF265).wellFormed = false := by decide
theorem test_well_formed_unknown : (Instr.unknown 0x5121).wellFormed = true := by decide

/-! Steps. -/

/-- The reset state with some registers set. -/
def withV (rs : List (Nibble × Byte)) (s : State) : State := rs.foldl (fun t r => setV r.1 r.2 t) s

/-- The reset state with bytes stored from an address on. -/
def withMem (a : Nat) (bs : List Byte) (s : State) : State := setMem (memWriteRun s.mem a bs) s

/-- One step on the word `w` stored at `pc`, and a check of the state after it. -/
def after (w : Nat) (s : State) (f : State → Bool) : Bool :=
  match step (s.withFetchWord 16 w) with
  | .next t => f t
  | .fault _ => false
  | .refused _ => false

/-- T6.1 -/
theorem test_cls : after 0x00E0 (setFb (togglePixel 5 0 clearedFb) State.reset)
    (fun t => !cell t.fb 5 && t.pc == 0x202) = true := by decide

/-- T2.12 -/
theorem test_ret : after 0x00EE { State.reset with pc := 0x20C, sp := 1, stack := State.reset.stack.set 0 0x206 }
    (fun t => t.pc == 0x206 && t.sp == 0 && t.fault == .none) = true := by decide

/-- T2.13 -/
theorem test_ret_underflow : after 0x00EE (setPc 0x20C State.reset)
    (fun t => t.pc == 0x20C && t.sp == 0 && faultOut t == 4) = true := by decide

/-- T2.7 -/
theorem test_sys : after 0x00E1 State.reset (fun t => t.pc == 0x0E1 && t.sp == 0) = true := by decide

/-- T2.3 -/
theorem test_jp_odd : after 0x1201 State.reset (fun t => t.pc == 0x201) = true := by decide

/-- T2.10 -/
theorem test_call : after 0x2300 { State.reset with sp := 15 }
    (fun t => t.pc == 0x300 && t.sp == 16 && t.stack[15] == 0x202) = true := by decide

/-- T2.11 -/
theorem test_call_overflow : after 0x2300 { State.reset with sp := 16 }
    (fun t => t.pc == 0x200 && t.sp == 16 && faultOut t == 3) = true := by decide

/-- T2.16 -/
theorem test_jp_v0 : after 0xBFFF (withV [(0, 0xFF)] State.reset) (fun t => t.pc == 0x10FE) = true := by decide

/-- T3.4 -/
theorem test_se_byte : after 0x3012 (setPc 0xFFE (withV [(0, 0x12)] State.reset)) (fun t => t.pc == 0x1002) = true := by
  decide

/-- T3.6 -/
theorem test_sne_byte : after 0x4310 (setPc 0x300 (withV [(3, 0x10)] State.reset)) (fun t => t.pc == 0x302) = true := by
  decide

/-- T3.8 -/
theorem test_se_register : after 0x5120 (withV [(1, 0x7F), (2, 0x7E)] State.reset) (fun t => t.pc == 0x202) = true := by
  decide

/-- T3.10 -/
theorem test_sne_register : after 0x9120 (withV [(1, 1), (2, 2)] State.reset) (fun t => t.pc == 0x204) = true := by
  decide

/-- T4.1 -/
theorem test_ld_byte : after 0x6A9D State.reset (fun t => getV t 0xA == 0x9D && t.pc == 0x202) = true := by decide

/-- T1.3 -/
theorem test_ld_byte_last_word : after 0x6011 (setPc 0xFFE State.reset)
    (fun t => getV t 0 == 0x11 && t.pc == 0x1000) = true := by decide

/-- T4.3 -/
theorem test_add_byte_no_flag : after 0x7102 (withV [(1, 0xFF)] State.reset)
    (fun t => getV t 1 == 1 && getV t 0xF == 0) = true := by decide

/-- T4.8 -/
theorem test_ld_i : after 0xAFFF (setI 0x1234 State.reset) (fun t => t.I == 0x0FFF) = true := by decide

/-- T4.9 -/
theorem test_rnd : after 0xC30F { State.reset with rndIn := [0xB7, 0x11] }
    (fun t => getV t 3 == 0x07 && t.rndIn == [0x11]) = true := by decide

/-- T4.10, whatever the byte is -/
theorem test_rnd_mask_zero : after 0xC300 (withV [(3, 0x55)] { State.reset with rndIn := [0xFF] })
    (fun t => getV t 3 == 0) = true := by decide

/-- T5.1 -/
theorem test_ld_register : after 0x8120 (withV [(2, 0x5A)] State.reset) (fun t => getV t 1 == 0x5A) = true := by decide

/-- T5.2 -/
theorem test_or : after 0x8121 (withV [(1, 0xF0), (2, 0x0F), (0xF, 0x55)] State.reset)
    (fun t => getV t 1 == 0xFF && getV t 0xF == 0x55) = true := by decide

/-- T5.3 -/
theorem test_and : after 0x8122 (withV [(1, 0xF0), (2, 0x3C), (0xF, 0x55)] State.reset)
    (fun t => getV t 1 == 0x30 && getV t 0xF == 0x55) = true := by decide

/-- T5.5 -/
theorem test_xor_self : after 0x8113 (withV [(1, 0xA7)] State.reset) (fun t => getV t 1 == 0) = true := by decide

/-- T5.7 -/
theorem test_add_no_carry : after 0x8124 (withV [(1, 0x80), (2, 0x7F), (0xF, 1)] State.reset)
    (fun t => getV t 1 == 0xFF && getV t 0xF == 0) = true := by decide

/-- T5.11 -/
theorem test_add_into_flag : after 0x8F14 (withV [(0xF, 0xFF), (1, 1)] State.reset)
    (fun t => getV t 0xF == 1) = true := by decide

/-- T5.17 -/
theorem test_sub_into_flag : after 0x8F15 (withV [(0xF, 0x09), (1, 0x03)] State.reset)
    (fun t => getV t 0xF == 0xFE) = true := by decide

/-- T5.19 -/
theorem test_sub_flag_operand : after 0x82F5 (withV [(2, 0x09), (0xF, 0x03)] State.reset)
    (fun t => getV t 2 == 0x08 && getV t 0xF == 1) = true := by decide

/-- T5.24 -/
theorem test_shr : after 0x8236 (withV [(2, 0x05), (3, 0xAA)] State.reset)
    (fun t => getV t 2 == 2 && getV t 3 == 0xAA && getV t 0xF == 1) = true := by decide

/-- T5.25 -/
theorem test_shr_flag : after 0x8F06 (withV [(0xF, 0x03)] State.reset) (fun t => getV t 0xF == 0) = true := by decide

/-- T5.28 -/
theorem test_subn : after 0x8127 (withV [(1, 0x02), (2, 0x01)] State.reset)
    (fun t => getV t 1 == 0xFF && getV t 0xF == 0) = true := by decide

/-- T5.32 -/
theorem test_subn_flag_operand : after 0x82F7 (withV [(2, 0x02), (0xF, 0x09)] State.reset)
    (fun t => getV t 2 == 0xFF && getV t 0xF == 1) = true := by decide

/-- T5.34 -/
theorem test_shl : after 0x820E (withV [(2, 0x81)] State.reset)
    (fun t => getV t 2 == 2 && getV t 0xF == 1) = true := by decide

/-- T5.39 -/
theorem test_shl_flag : after 0x8F0E (withV [(0xF, 0xC1)] State.reset) (fun t => getV t 0xF == 2) = true := by decide

/-- T6.4 -/
theorem test_draw_wraps : after 0xD012
    (withMem 0x20E [0xE0, 0x80] (setI 0x20E (withV [(0, 62), (1, 31)] State.reset)))
    (fun t => cell t.fb 2046 && cell t.fb 2047 && cell t.fb 1984 && cell t.fb 62 && !cell t.fb 1985 &&
      getV t 0xF == 0) = true := by decide

/-- T6.6 -/
theorem test_draw_collision : after 0xD011
    (withMem 0x300 [0xFF] (setFb (togglePixel 7 0 clearedFb) (setI 0x300 State.reset)))
    (fun t => cell t.fb 0 && cell t.fb 6 && !cell t.fb 7 && getV t 0xF == 1) = true := by decide

/-- T7.3 -/
theorem test_skp : after 0xE29E (keysWrite 0x8000 (withV [(2, 0x0F)] State.reset)) (fun t => t.pc == 0x204) = true := by
  decide

/-- T7.4 -/
theorem test_skp_no_key_number : after 0xE29E (keysWrite 0xFFFF (withV [(2, 0x10)] State.reset))
    (fun t => t.pc == 0x200 && faultOut t == 5) = true := by decide

/-- T7.6 -/
theorem test_sknp : after 0xE2A1 (keysWrite 0x0080 (withV [(2, 0x07)] (setPc 0x210 State.reset)))
    (fun t => t.pc == 0x212) = true := by decide

/-- T7.7 -/
theorem test_sknp_no_key_number : after 0xE2A1 (withV [(2, 0xFF)] State.reset)
    (fun t => t.pc == 0x200 && faultOut t == 5) = true := by decide

/-- T7.9 -/
theorem test_ld_dt_reads_after_tick : after 0xF307 (setDT 1 (withV [(3, 0x77)] State.reset))
    (fun t => getV t 3 == 0 && t.DT == 0) = true := by decide

/-- T7.11 -/
theorem test_key_wait_lowest : after 0xF50A (keysWrite 0x0208 (setPc 0x220 State.reset))
    (fun t => getV t 5 == 3 && t.pc == 0x222) = true := by decide

/-- T7.12 -/
theorem test_key_wait_costs_tick : after 0xF50A (setDT 9 (setST 1 (withV [(5, 0x44)] (setPc 0x220 State.reset))))
    (fun t => getV t 5 == 0x44 && t.pc == 0x220 && t.DT == 8 && t.ST == 0) = true := by decide

/-- T7.15 -/
theorem test_set_dt : after 0xF015 (setDT 7 (withV [(0, 0x3C)] State.reset)) (fun t => t.DT == 0x3C) = true := by decide

/-- T7.17 -/
theorem test_set_st : after 0xF118 (withV [(1, 2)] State.reset) (fun t => t.ST == 2 && t.DT == 0) = true := by decide

/-- T8.4 -/
theorem test_add_i_wraps : after 0xF21E (setI 0xFF80 (withV [(2, 0xFF)] State.reset)) (fun t => t.I == 0x007F) = true := by
  decide

/-- T8.2 -/
theorem test_add_i_no_flag : after 0xF21E (setI 0x0FFF (withV [(2, 1)] State.reset))
    (fun t => t.I == 0x1000 && getV t 0xF == 0) = true := by decide

/-- T8.8 -/
theorem test_glyph : after 0xF029 (withV [(0, 0xFF)] State.reset) (fun t => t.I == 0x04FB) = true := by decide

/-- T8.12 -/
theorem test_decimal_last : after 0xF333 (setI 0xFFD (withV [(3, 0xFF)] State.reset))
    (fun t => memReadRun t.mem 0xFFD 3 == [2, 5, 5] && t.I == 0xFFD) = true := by decide

/-- T8.13 -/
theorem test_decimal_past_end : after 0xF333 (withMem 0xFFE [0x11, 0x22] (setI 0xFFE (withV [(3, 0xFF)] State.reset)))
    (fun t => memReadRun t.mem 0xFFE 2 == [0x11, 0x22] && faultOut t == 2 && t.pc == 0x200) = true := by decide

/-- T8.14 -/
theorem test_store_registers : after 0xF155 (setI 0x208 (withV [(0, 0x12), (1, 0x08), (2, 0x99)] State.reset))
    (fun t => memReadRun t.mem 0x208 2 == [0x12, 0x08] && t.I == 0x208 && (memKnown t.mem 0x20A).isNone) = true := by
  decide

/-- T8.19 -/
theorem test_store_registers_past_end : after 0xFF55 (setI 0xFF1 State.reset)
    (fun t => faultOut t == 2 && t.pc == 0x200) = true := by decide

/-- T8.21, the default font -/
theorem test_load_registers_font : after 0xFF65 State.reset
    (fun t => t.V.toList == [0xF0, 0x90, 0x90, 0x90, 0xF0, 0x20, 0x60, 0x20, 0x20, 0x70, 0xF0, 0x10, 0xF0, 0x80,
      0xF0, 0xF0]) = true := by decide

/-- T8.23 -/
theorem test_load_registers_past_end : after 0xF165
    (withMem 0xFFF [0x5A] (setI 0xFFF (withV [(0, 1), (1, 2)] State.reset)))
    (fun t => getV t 0 == 1 && getV t 1 == 2 && faultOut t == 2) = true := by decide

/-- T1.7 -/
theorem test_unknown : after 0x5121 (withV [(1, 1), (2, 1)] State.reset)
    (fun t => t.pc == 0x202 && t.fault == .none) = true ∧
    stepDiag (State.reset.withFetchWord 16 0x5121) = .invalidOpcode 0x5121 := by decide

/-- T1.2 -/
theorem test_tick : after 0x6000 (setDT 5 (setST 1 State.reset)) (fun t => t.DT == 4 && t.ST == 0) = true := by decide

/-- The state check of a step as it stands. -/
def stepped (s : State) (f : State → Bool) : Bool :=
  match step s with
  | .next t => f t
  | .fault _ => false
  | .refused _ => false

/-- T1.4 -/
theorem test_fetch_fault : stepped (setDT 4 (setPc 0xFFF State.reset))
    (fun t => faultOut t == 1 && t.DT == 3 && t.pc == 0xFFF) = true := by decide

/-- T1.6 -/
theorem test_halted : stepped (setDT 5 { State.reset with fault := .dataAddress })
    (fun t => faultOut t == 2 && t.DT == 5 && t.pc == 0x200) = true := by decide

/-- T1.14 -/
theorem test_odd_fetch : stepped (withMem 0x201 [0x60, 0x77] (setPc 0x201 State.reset))
    (fun t => getV t 0 == 0x77 && t.pc == 0x203) = true := by decide

/-- T9.2 -/
theorem test_load : (match loadRom [0x12, 0x00, 0xAB, 0xCD] State.reset with
    | .ok t => memReadRun t.mem 0x200 4 == [0x12, 0x00, 0xAB, 0xCD] && stepped t (fun u => u.pc == 0x200)
    | .error _ => false) = true := by decide

/-- A write of the byte an address holds unlisted leaves no cell. -/
theorem test_memory_canonical :
    memWrite [] 0 0xF0 = [] ∧ memWrite [(0, 0x11)] 0 0xF0 = [] ∧
    memWrite (memWrite [] 5 1) 3 2 = [(3, 2), (5, 1)] := by decide

/-! Witnesses: for each statement with hypotheses, a concrete state and operands that meet them, at a boundary of each
clause. A step or an instruction that "answers a next state" is evaluated. -/

/-- A state about to run the word `w` at `pc`. -/
def about (w : Nat) (s : State) : State := s.withFetchWord 16 w

/-- `x ≤ 0xFFE`-edge: the state about to run `w` at `0xFFE`. -/
def aboutLast (w : Nat) : State := about w (setPc 0xFFE State.reset)

theorem test_witness_ResetState : Config.font[79]? = some (0x80 : Byte) := by decide

theorem test_witness_StepKeepsInvariant :
    ∃ s t, Inv s ∧ s.sp.val = 1 ∧ step s = .next t := by
  refine ⟨about 0x00EE { State.reset with sp := 1, stack := State.reset.stack.set 0 0x206 }, _,
    ⟨by decide, by decide, ?_⟩, rfl, rfl⟩
  intro i hi
  have hi1 : i.val < 1 := hi
  have h0 : i = ⟨0, by decide⟩ := Fin.ext (by simpa using hi1)
  subst h0
  decide

theorem test_witness_DecodeEncode :
    (Instr.unknown 0x5121).wellFormed = true ∧ (Instr.sysNnn 0x0EF).wellFormed = true := by decide

theorem test_witness_FamilyZero :
    (0x00E0 : Word).toNat < 0x1000 ∧ (0x00EE : Word).toNat < 0x1000 ∧
    ((0x0FFF : Word).toNat < 0x1000 ∧ (0x0FFF : Word) ≠ 0x00E0 ∧ (0x0FFF : Word) ≠ 0x00EE) := by decide

theorem test_witness_FetchBigEndian : (aboutLast 0x6A9D).pc.toNat ≤ 0xFFE := by decide

theorem test_witness_StepRunsDecoded :
    (aboutLast 0x6A9D).fault = .none ∧ (aboutLast 0x6A9D).pc.toNat ≤ 0xFFE ∧
    ∃ rest, decode [memRead (aboutLast 0x6A9D).mem (aboutLast 0x6A9D).pc.toNat,
      memRead (aboutLast 0x6A9D).mem ((aboutLast 0x6A9D).pc.toNat + 1)] = .ok (.ldVxKk 0xA 0x9D, rest) :=
  ⟨by decide, by decide, [], rfl⟩

theorem test_witness_HaltedStep : ({ State.reset with fault := .keyIndex } : State).fault ≠ .none := by decide

theorem test_witness_FetchFault :
    (setPc 0xFFF State.reset).fault = .none ∧ 0xFFE < (setPc 0xFFF State.reset).pc.toNat := by decide

/-- A step that runs `LD V0, 0x11` at the last word: neither timer, nor `Cxkk`, nor memory, framebuffer, stack or `I`. -/
theorem test_witness_fetched : fetchWord (aboutLast 0x6011) = some 0x6011 := by decide

theorem test_witness_TimersTick :
    (aboutLast 0x6011).fault = .none ∧ (∃ t, step (aboutLast 0x6011) = .next t) ∧
    (∀ op x, fetchWord (aboutLast 0x6011) = some op → decodeWord op ≠ .ldDtVx x) ∧
    (∀ op x, fetchWord (aboutLast 0x6011) = some op → decodeWord op ≠ .ldStVx x) := by
  refine ⟨by decide, ⟨_, rfl⟩, fun op x h => ?_, fun op x h => ?_⟩ <;>
    rw [test_witness_fetched, Option.some.injEq] at h <;> subst h <;> exact nofun

theorem test_witness_StepDeterministic :
    (∃ t, step (aboutLast 0x6011) = .next t) ∧
    (∀ op x kk, fetchWord (aboutLast 0x6011) = some op → decodeWord op ≠ .rndVxKk x kk) ∧
    (aboutLast 0xF30A).fault = .none ∧ fetchWord (aboutLast 0xF30A) = some 0xF30A ∧ decodeWord 0xF30A = .ldVxK 3 ∧
    (∀ k, k < 16 → keySet (aboutLast 0xF30A) k = false) := by
  refine ⟨⟨_, rfl⟩, fun op x kk h => ?_, by decide⟩
  rw [test_witness_fetched, Option.some.injEq] at h
  subst h
  exact nofun

theorem test_witness_NetProgramCounter :
    ((aboutLast 0x6011).fault = .none ∧ fetchWord (aboutLast 0x6011) = some 0x6011 ∧
      faultOf (decodeWord 0x6011) (aboutLast 0x6011) = none ∧ decodeWord 0x6011 ≠ .ret ∧
      ∃ t, step (aboutLast 0x6011) = .next t) ∧
    (faultOf (decodeWord 0x00EE) (aboutLast 0x00EE) ≠ none ∧ ∃ t, step (aboutLast 0x00EE) = .next t) ∧
    ((setPc 0xFFF State.reset).fault = .none ∧ fetchWord (setPc 0xFFF State.reset) = none ∧
      ∃ t, step (setPc 0xFFF State.reset) = .next t) :=
  ⟨⟨by decide, by decide, by decide, by decide, _, rfl⟩, ⟨by decide, _, rfl⟩, by decide, by decide, _, rfl⟩

theorem test_witness_InstructionFrame :
    faultOf (.ldBVx 3) (setI 0xFFD State.reset) = none ∧
    ∃ t, exec (.ldBVx 3) (setI 0xFFD State.reset) = .next t := ⟨by decide, _, rfl⟩

theorem test_witness_FaultsArePrecise :
    faultOf (.ldBVx 3) (setI 0xFFE State.reset) = some .dataAddress ∧
    faultOf (.callNnn 0) { State.reset with sp := 16 } = some .stackOverflow ∧
    faultOf .ret State.reset = some .stackUnderflow ∧
    faultOf (.skpVx 2) (withV [(2, 16)] State.reset) = some .keyIndex ∧
    faultOf (.ldMemVx 0) (setI 0xFFF State.reset) = none ∧ faultOf (.drwVxVyN 0 0 0) (setI 0xFFFF State.reset) = none := by
  decide

theorem test_witness_StepNever :
    (∃ t, step (aboutLast 0x6011) = .next t) ∧ (decodeWord 0x6011 ≠ .ret ∧ decodeWord 0x6011 ≠ .cls) ∧
    (∀ op x, fetchWord (aboutLast 0x6011) = some op → decodeWord op ≠ .ldBVx x ∧ decodeWord op ≠ .ldMemVx x) ∧
    (∀ op x y n, fetchWord (aboutLast 0x6011) = some op → decodeWord op ≠ .cls ∧ decodeWord op ≠ .drwVxVyN x y n) ∧
    (∀ op nnn, fetchWord (aboutLast 0x6011) = some op → decodeWord op ≠ .ret ∧ decodeWord op ≠ .callNnn nnn) ∧
    (∀ op nnn x, fetchWord (aboutLast 0x6011) = some op →
      decodeWord op ≠ .ldINnn nnn ∧ decodeWord op ≠ .addIVx x ∧ decodeWord op ≠ .ldFVx x) ∧
    (∃ t, step { State.reset with fault := .dataAddress } = .next t) := by
  refine ⟨⟨_, rfl⟩, by decide, ?_, ?_, ?_, ?_, _, rfl⟩ <;> intros <;>
    rename_i h <;> rw [test_witness_fetched, Option.some.injEq] at h <;> subst h <;>
    rw [show decodeWord 0x6011 = .ldVxKk 0 0x11 by decide] <;> simp

theorem test_witness_SafeStep :
    Safe (aboutLast 0x6011) ∧ (∃ t, step (aboutLast 0x6011) = .next t ∧ Safe t) ∧
    Safe (aboutLast 0x00EE) ∧ (∃ t, step (aboutLast 0x00EE) = .next t ∧ ¬ Safe t) := by
  refine ⟨rfl, ⟨_, rfl, rfl⟩, rfl, _, rfl, ?_⟩
  intro h
  cases h

theorem test_witness_FlagRegister :
    (0xE : Nibble) ≠ 0xF ∧
    (faultOf (.drwVxVyN 0 1 1) (setI 0xFFF State.reset) = none ∧
      ∃ t, exec (.drwVxVyN 0 1 0) (setI 0xFFF State.reset) = .next t) ∧
    (∃ t, exec (.ldVxMem 0xE) State.reset = .next t) := ⟨by decide, ⟨by decide, _, rfl⟩, _, rfl⟩

theorem test_witness_Jumps :
    (0x0EF : Addr) ≠ 0x0E0 ∧ (0x0EF : Addr) ≠ 0x0EE ∧
    (∃ t, exec (.jpNnn 0xFFF) State.reset = .next t ∧ State.reset.fault = .none ∧ 0xFFE < t.pc.toNat) ∧
    (∃ t, exec (.jpV0Nnn 0xFFF) State.reset = .next t ∧ 0xFFE < t.pc.toNat) ∧
    (aboutLast 0x1FFE).fault = .none ∧ fetchWord (aboutLast 0x1FFE) = some (formatA 0x1 0xFFE) ∧
    (aboutLast 0x1FFE).pc.toNat = (0xFFE : Addr).toNat :=
  ⟨by decide, by decide, ⟨_, rfl, rfl, by decide⟩, ⟨_, rfl, by decide⟩, rfl, by decide, by decide⟩

theorem test_witness_Call :
    (∃ k : Fin Config.stackDepth, ({ State.reset with sp := 15 } : State).sp.val = k.val) ∧
    ({ State.reset with sp := 16 } : State).sp.val = 16 := ⟨⟨⟨15, by decide⟩, rfl⟩, rfl⟩

theorem test_witness_Return :
    (∃ k : Fin Config.stackDepth, ({ State.reset with sp := 1 } : State).sp.val = k.val + 1) ∧
    (∃ k : Fin Config.stackDepth, ({ State.reset with sp := 16 } : State).sp.val = k.val + 1) ∧
    State.reset.sp.val = 0 := ⟨⟨⟨0, by decide⟩, rfl⟩, ⟨⟨15, by decide⟩, rfl⟩, rfl⟩

theorem test_witness_CallThenReturn :
    ∃ s t u : State, s.sp.val < 16 ∧ exec (.callNnn 0x20A) s = .next t ∧ u.sp = t.sp ∧
      ∀ k : Fin Config.stackDepth, k.val < t.sp.val → u.stack[k] = t.stack[k] :=
  ⟨{ State.reset with sp := 15 }, _, _, by decide, rfl, rfl, fun _ _ => rfl⟩

theorem test_witness_RandomByte :
    (∃ b bs, ({ State.reset with rndIn := [0xB7] } : State).rndIn = b :: bs) ∧ State.reset.rndIn = [] :=
  ⟨⟨0xB7, [], rfl⟩, rfl⟩

theorem test_witness_flag_operands :
    ((0x1 : Nibble) ≠ 0xF ∧ (0x2 : Nibble) ≠ 0xF) ∧ ((0xF : Nibble) = 0xF ∧ (0xE : Nibble) ≠ 0xF) := by decide

/-- The draw in range at the last byte, in range with no row at all, and out of range by one. -/
theorem test_witness_DrawSprite :
    (setI 0xFFF State.reset).I.toNat + (1 : Nibble).toNat - 1 ≤ 0xFFF ∧ (0 : Nibble) = 0 ∧
    ((2 : Nibble) ≠ 0 ∧ 0xFFF < (setI 0xFFF State.reset).I.toNat + (2 : Nibble).toNat - 1) := by decide

/-- A cell under a sprite bit that is lit, and one that is under none. -/
theorem test_witness_DrawSprite_cells :
    (spriteCovers (setFb (togglePixel 0 0 clearedFb) State.reset) 0 0 1 0 ∧
      cell (togglePixel 0 0 clearedFb) 0 = true) ∧
    ¬ spriteCovers State.reset 0 0 0 5 := by
  refine ⟨⟨⟨0, 0, by decide, by decide, by decide, by decide⟩, by decide⟩, ?_⟩
  rintro ⟨r, c, hr, -⟩
  exact absurd hr (Nat.not_lt_zero r)

theorem test_witness_DrawTwiceRestores :
    ∃ s t u : State, s.I.toNat + (5 : Nibble).toNat - 1 ≤ 0xFFF ∧ exec (.drwVxVyN 0 1 5) s = .next t ∧
      u.fb = t.fb ∧ u.mem = s.mem ∧ u.I = s.I ∧ getV u 0 = getV s 0 ∧ getV u 1 = getV s 1 ∧
      ∃ i, cell s.fb i = false ∧ cell t.fb i = true :=
  ⟨State.reset, _, _, by decide, rfl, rfl, rfl, rfl, rfl, rfl, 3, by decide, by decide⟩

theorem test_witness_KeySkips :
    (getV (withV [(2, 15)] State.reset) 2).toNat ≤ 15 ∧ 15 < (getV (withV [(2, 16)] State.reset) 2).toNat := by decide

theorem test_witness_KeyWait :
    (keySet (keysWrite 0x8000 State.reset) 15 = true ∧ ∀ j, j < 15 → keySet (keysWrite 0x8000 State.reset) j = false) ∧
    (∀ k, k < 16 → keySet State.reset k = false) ∧
    ((aboutLast 0xF30A).fault = .none ∧ fetchWord (aboutLast 0xF30A) = some 0xF30A ∧ decodeWord 0xF30A = .ldVxK 3 ∧
      ∀ k, k < 16 → keySet (aboutLast 0xF30A) k = false) := by decide

theorem test_witness_TimerAccess :
    (fetchWord (aboutLast 0xF307) = some 0xF307 ∧ decodeWord 0xF307 = .ldVxDt 3 ∧
      ∃ t, step (aboutLast 0xF307) = .next t) ∧
    (fetchWord (aboutLast 0xF315) = some 0xF315 ∧ decodeWord 0xF315 = .ldDtVx 3 ∧
      ∃ t, step (aboutLast 0xF315) = .next t) ∧
    (fetchWord (aboutLast 0xF318) = some 0xF318 ∧ decodeWord 0xF318 = .ldStVx 3 ∧
      ∃ t, step (aboutLast 0xF318) = .next t) :=
  ⟨⟨by decide, by decide, _, rfl⟩, ⟨by decide, by decide, _, rfl⟩, by decide, by decide, _, rfl⟩

theorem test_witness_StoreDecimal :
    (setI 0xFFD State.reset).I.toNat + 2 ≤ 0xFFF ∧ 0xFFF < (setI 0xFFE State.reset).I.toNat + 2 := by decide

theorem test_witness_StoreRegisters_LoadRegisters :
    (setI 0xFFF State.reset).I.toNat + (0 : Nibble).toNat ≤ 0xFFF ∧
    0xFFF < (setI 0xFFF State.reset).I.toNat + (1 : Nibble).toNat := by decide

theorem test_witness_StoreThenLoad :
    ∃ s t u : State, exec (.ldMemVx 15) s = .next t ∧ u.mem = t.mem ∧ u.I = s.I ∧
      s.I.toNat + (15 : Nibble).toNat ≤ 0xFFF :=
  have ⟨t, h, hI⟩ : ∃ t, exec (.ldMemVx 15) (setI 0xFF0 State.reset) = .next t ∧ t.I = 0xFF0 := ⟨_, rfl, rfl⟩
  ⟨_, t, t, h, rfl, hI, by decide⟩

theorem test_witness_StoreThenLoad_decimal :
    ∃ s t u : State, exec (.ldBVx 3) s = .next t ∧ u.mem = t.mem ∧ u.I = s.I ∧ s.I.toNat + 2 ≤ 0xFFF :=
  have ⟨t, h, hI⟩ : ∃ t, exec (.ldBVx 3) (setI 0xFFD State.reset) = .next t ∧ t.I = 0xFFD := ⟨_, rfl, rfl⟩
  ⟨_, t, t, h, rfl, hI, by decide⟩

/-- A store whose bytes a fetch can meet at any of its two places, and miss. -/
theorem test_witness_FetchSeesStore :
    ∃ s t, s.I.toNat = 0x300 ∧ exec (.ldMemVx 1) s = .next t ∧
      ∀ p : Word, p.toNat ≤ 0xFFE → ∃ u : State, u.mem = t.mem ∧ u.pc.toNat = p.toNat :=
  have ⟨t, h⟩ : ∃ t, exec (.ldMemVx 1) (setI 0x300 State.reset) = .next t := ⟨_, rfl⟩
  ⟨setI 0x300 State.reset, t, rfl, h, fun p _ => ⟨setPc p t, rfl, rfl⟩⟩

theorem test_witness_FetchSeesStore_decimal :
    ∃ s t u : State, s.I.toNat + 2 ≤ 0xFFF ∧ exec (.ldBVx 3) s = .next t ∧ u.mem = t.mem ∧ u.pc.toNat = 0xFFE ∧
      u.pc.toNat + 1 = s.I.toNat + 2 :=
  have ⟨t, h⟩ : ∃ t, exec (.ldBVx 3) (setI 0xFFD State.reset) = .next t := ⟨_, rfl⟩
  ⟨_, t, setPc 0xFFE t, by decide, h, rfl, rfl, rfl⟩

theorem test_witness_UnknownIsNoOp :
    (aboutLast 0x5121).fault = .none ∧ fetchWord (aboutLast 0x5121) = some 0x5121 ∧ unknownWord 0x5121 = true ∧
    fetchWord (aboutLast 0x6011) = some 0x6011 ∧ unknownWord 0x6011 = false := by decide

theorem test_witness_RomLoad :
    (List.replicate 3584 (0 : Byte)).length ≤ 3584 ∧ 3584 < (List.replicate 3585 (0 : Byte)).length := by
  simp only [List.length_replicate]; decide

theorem test_witness_KeysPort : ∃ t, step (aboutLast 0x6011) = .next t := ⟨_, rfl⟩

theorem test_witness_PortOrder :
    loadRom [] State.reset = .ok State.reset ∧ loadRom (List.replicate 3585 0) State.reset = .error .tooLong ∧
    Move.fbRead ≠ .reset ∧ (∀ bytes, Move.fbRead ≠ .load bytes) ∧
    (∃ r v, hostMove .fbRead ⟨State.reset, true, true⟩ = some (r, v)) ∧
    (⟨State.reset, true, false⟩ : System).loaded = true ∧ (⟨State.reset, false, true⟩ : System).used = true ∧
    (aboutLast 0xC30F).fault = .none ∧ fetchWord (aboutLast 0xC30F) = some 0xC30F ∧
    decodeWord 0xC30F = .rndVxKk 3 0x0F :=
  ⟨rfl, if_pos (by rw [List.length_replicate]; decide), nofun, nofun, ⟨_, _, rfl⟩, rfl, rfl, rfl, by decide, by decide⟩

/-- R52: the one load comes before any `keys_write`. -/
theorem test_load_after_keys_write :
    (hostMove (.keysWrite 1) ⟨State.reset, false, false⟩).bind (fun p => hostMove (.load [0x12]) p.2) = none := rfl

theorem test_witness_ResetOnlyWayOut :
    Move.step 0 ≠ .reset ∧ ({ State.reset with fault := .keyIndex } : State).fault ≠ .none ∧
    (∃ r v, hostMove (.step 0) ⟨{ State.reset with fault := .keyIndex }, true, true⟩ = some (r, v)) :=
  ⟨nofun, nofun, _, _, rfl⟩

theorem test_witness_OutputsRead :
    ∀ c ∈ [Cause.none, .fetchAddress, .dataAddress, .stackOverflow, .stackUnderflow, .keyIndex],
      ∃ w : System, w.core.fault = c := fun c _ => ⟨⟨{ State.reset with fault := c }, false, false⟩, rfl⟩

theorem test_witness_IdleStaysIdle : idle (about 0x120C (setPc 0x20C State.reset)) = true := by decide

theorem test_witness_FramebufferRead : 63 < Config.fbWidth ∧ 31 < Config.fbHeight := by decide

end Sys2Proof.Tests
end

section
/-! The key flags (10_state.md R30, R50): what `keys_write` does to them, and that no instruction and no step of the
core writes them. -/

namespace Sys2Proof.Machine

/-! The `keys_write` port. -/

@[simp] theorem keysWrite_keys (k : BitVec 16) (s : State) : (keysWrite k s).keys = k := rfl

@[simp] theorem keySet_keysWrite (k : BitVec 16) (s : State) (i : Nat) : keySet (keysWrite k s) i = k.getLsbD i := rfl

theorem keysWrite_changes (k : BitVec 16) (s : State) : ChangesOnly (fun p => p = .keys) s (keysWrite k s) := by
  intro p hp
  cases p with
  | keys => exact absurd rfl hp
  | rnd => exact ⟨rfl, rfl⟩
  | _ => rfl

theorem hostMove_keysWrite (k : BitVec 16) (w : System) :
    hostMove (.keysWrite k) w = some (.done, portUsed (keysWrite k w.core) w) := rfl

@[simp] theorem portUsed_core (s : State) (w : System) : (portUsed s w).core = s := rfl

/-! The shapes of an instruction's outcome: a fault, an update `u` of the state, or one of the two by a check. -/

section Outcomes

variable {s t u : State} {c : Cause}

theorem keys_of_next (h : (.next u : Result) = .next t) (hu : u.keys = s.keys) : t.keys = s.keys :=
  Host.Outcome.next.inj h ▸ hu

theorem keys_of_raise (h : raise c s = .next t) : t.keys = s.keys := keys_of_next h rfl

theorem keys_of_checked {b : Prop} [Decidable b] (h : (if b then raise c s else .next u) = .next t)
    (hu : u.keys = s.keys) : t.keys = s.keys := by
  split at h
  · exact keys_of_raise h
  · exact keys_of_next h hu

theorem push_keys {v : Word} (h : push v s = some t) : t.keys = s.keys := by
  obtain ⟨_, rfl⟩ := push_eq_some h
  rfl

theorem pop_keys {v : Word} (h : pop s = some (v, t)) : t.keys = s.keys := by
  obtain ⟨_, _, _, rfl⟩ := pop_eq_some h
  rfl

/-! The three instructions whose outcome turns on the stack or on the key flags themselves. -/

theorem execRet_keys (h : execRet s = .next t) : t.keys = s.keys := by
  unfold execRet at h
  split at h
  · exact keys_of_raise h
  · next hpop => exact keys_of_next h ((setPc_keys ..).trans (pop_keys hpop))

theorem execCallNnn_keys {nnn : Addr} (h : execCallNnn nnn s = .next t) : t.keys = s.keys := by
  unfold execCallNnn at h
  split at h
  · exact keys_of_raise h
  · next hpush => exact keys_of_next h ((jump_keys ..).trans (push_keys hpush))

theorem execLdVxK_keys {x : Nibble} (h : execLdVxK x s = .next t) : t.keys = s.keys := by
  unfold execLdVxK at h
  split at h <;> exact keys_of_next h rfl

end Outcomes

/-- No instruction writes the key flags (R36): the last case is that of the instructions without a check, which update
other pieces of the state. -/
theorem exec_keys {i : Instr} {s t : State} (h : exec i s = .next t) : t.keys = s.keys := by
  cases i with
  | ret => exact execRet_keys h
  | callNnn nnn => exact execCallNnn_keys h
  | ldVxK x => exact execLdVxK_keys h
  | drwVxVyN x y n => exact keys_of_checked h rfl
  | skpVx x => exact keys_of_checked h rfl
  | sknpVx x => exact keys_of_checked h rfl
  | ldBVx x => exact keys_of_checked h rfl
  | ldMemVx x => exact keys_of_checked h rfl
  | ldVxMem x => exact keys_of_checked h rfl
  | _ => exact keys_of_next h rfl

/-- The key flags change only between steps, by the host (R50): a halted step, a fetch fault and an executed instruction
all leave them. -/
theorem step_keys {s t : State} (h : step s = .next t) : t.keys = s.keys := by
  rcases step_cases s with ⟨_, hs⟩ | ⟨_, _, hs⟩ | ⟨_, _, _, hs⟩
  · exact keys_of_next (hs ▸ h) rfl
  · exact keys_of_raise (s := tickTimers s) (hs ▸ h)
  · exact exec_keys (s := tickTimers s) (hs ▸ h)

/-- Settles O49: the port's own laws, and the flags' place in the frame of a step. -/
theorem keysPort : Obligations.KeysPort := by
  intro s k
  exact ⟨keySet_keysWrite k s, keysWrite_changes k s,
    fun w => ⟨_, hostMove_keysWrite k w, portUsed_core _ w⟩, fun _ => step_keys⟩

end Sys2Proof.Machine
end

section
/-! The fetch and the memory (20_memory.md): the fetched word is the two bytes at `pc`, and a store of a run of bytes, by
`Fx55` or `Fx33`, is what every later read of those addresses gives. -/

namespace Sys2Proof.Machine

/-! A read after a run of bytes is stored, at an address of the run and outside it (R63, R68). -/

theorem memRead_writeRun_add (m : Memory) (a : Nat) (vs : List Byte) (i : Nat) (hi : i < vs.length) :
    memRead (memWriteRun m a vs) (a + i) = vs[i] := by
  simp [memRead_writeRun, hi]

theorem memRead_writeRun_outside (m : Memory) (a : Nat) (vs : List Byte) (b : Nat) (hb : b < a ∨ a + vs.length ≤ b) :
    memRead (memWriteRun m a vs) b = memRead m b := by
  rw [memRead_writeRun, dif_neg (by omega)]

/-! The runs the two stores write: registers (R229) and digits (R228). -/

/-- The byte of register `r` in a dump of registers. -/
theorem memRead_writeRun_getVUpTo (s : State) (m : Memory) (a : Nat) {x r : Nibble}
    (hr : r.toNat ≤ x.toNat) :
    memRead (memWriteRun m a (getVUpTo s x)) (a + r.toNat) = getV s r := by
  have hlt : r.toNat < (getVUpTo s x).length := by rw [getVUpTo_length]; omega
  rw [memRead_writeRun_add _ _ _ _ hlt, getVUpTo_getElem, BitVec.ofNat_toNat, BitVec.setWidth_eq]

/-- The three digits in a decimal store, as numbers. -/
theorem memRead_writeRun_decimalDigits (m : Memory) (a : Nat) (v : Byte) :
    (memRead (memWriteRun m a (decimalDigits v)) a).toNat = v.toNat / 100 ∧
    (memRead (memWriteRun m a (decimalDigits v)) (a + 1)).toNat = v.toNat / 10 % 10 ∧
    (memRead (memWriteRun m a (decimalDigits v)) (a + 2)).toNat = v.toNat % 10 := by
  have hv := v.isLt
  refine ⟨?_, ?_, ?_⟩ <;> simp [memRead_writeRun, decimalDigits] <;> omega

/-! The two stores, when they do not fault. -/

section Stores

variable {s t : State} {x : Nibble}

/-- `Fx55` in range stores the run `V[0] .. V[x]` at `I` (R229). -/
theorem exec_ldMemVx_inRange (hI : s.I.toNat + x.toNat ≤ 0xFFF) :
    exec (.ldMemVx x) s = .next (advance (setMem (memWriteRun s.mem s.I.toNat (getVUpTo s x)) s)) := by
  have hr : dataOutOfRange s (x.toNat + 1) = false := by rw [dataOutOfRange_succ]; exact decide_eq_false (by omega)
  simp [exec, execLdMemVx, hr]

/-- `Fx33` in range stores the run of the three digits at `I` (R228). -/
theorem exec_ldBVx_inRange (hI : s.I.toNat + 2 ≤ 0xFFF) :
    exec (.ldBVx x) s = .next (advance (setMem (memWriteRun s.mem s.I.toNat (decimalDigits (getV s x))) s)) := by
  have hr : dataOutOfRange s 3 = false := by rw [dataOutOfRange_succ]; exact decide_eq_false (by omega)
  simp [exec, execLdBVx, hr]

theorem mem_of_ldMemVx (hI : s.I.toNat + x.toNat ≤ 0xFFF) (h : exec (.ldMemVx x) s = .next t) :
    t.mem = memWriteRun s.mem s.I.toNat (getVUpTo s x) := by
  rw [exec_ldMemVx_inRange hI] at h
  obtain rfl := Host.Outcome.next.inj h
  rfl

theorem mem_of_ldBVx (hI : s.I.toNat + 2 ≤ 0xFFF) (h : exec (.ldBVx x) s = .next t) :
    t.mem = memWriteRun s.mem s.I.toNat (decimalDigits (getV s x)) := by
  rw [exec_ldBVx_inRange hI] at h
  obtain rfl := Host.Outcome.next.inj h
  rfl

end Stores

/-! The fetch (R62). -/

theorem fetchWord_eq {s : State} (hpc : s.pc.toNat ≤ 0xFFE) :
    fetchWord s = some (memRead s.mem s.pc.toNat ++ memRead s.mem (s.pc.toNat + 1)) :=
  fetchWord_eq_some.mpr ⟨hpc, rfl⟩

/-- What holds of the byte memory reads at every address holds of the two bytes of a fetched word at theirs. -/
theorem fetchWord_bytes {u : State} (hpc : u.pc.toNat ≤ 0xFFE) (P : Nat → Byte → Prop)
    (hP : ∀ a, P a (memRead u.mem a)) :
    ∃ hi lo : Byte, fetchWord u = some (hi ++ lo) ∧
      ∀ a b, (a = u.pc.toNat ∧ b = hi) ∨ (a = u.pc.toNat + 1 ∧ b = lo) → P a b := by
  refine ⟨_, _, fetchWord_eq hpc, ?_⟩
  rintro a b (⟨rfl, rfl⟩ | ⟨rfl, rfl⟩) <;> exact hP _

/-- Two bytes side by side, as a number. -/
theorem append_toNat (hi lo : Byte) : (hi ++ lo).toNat = hi.toNat * 256 + lo.toNat := by
  rw [BitVec.toNat_append, ← Nat.shiftLeft_add_eq_or_of_lt lo.isLt, Nat.shiftLeft_eq]

/-- Settles O11: the fetched word is the byte at `pc` beside the byte at `pc + 1`. -/
theorem fetchBigEndian : Obligations.FetchBigEndian :=
  fun _ hpc => ⟨_, fetchWord_eq hpc, append_toNat _ _⟩

/-- Settles O46: a fetched byte is what memory reads at its address, and memory is the old one with the run stored. -/
theorem fetchSeesStore : Obligations.FetchSeesStore := by
  intro s t u x hmem hpc
  constructor
  · intro hI h
    refine fetchWord_bytes hpc _ fun a => ?_
    rw [hmem, mem_of_ldMemVx hI h]
    refine ⟨fun r hr ha => ?_, fun ha => ?_⟩
    · rw [ha, memRead_writeRun_getVUpTo _ _ _ hr]
    · exact memRead_writeRun_outside _ _ _ _ (by rw [getVUpTo_length]; omega)
  · intro hI h
    refine fetchWord_bytes hpc _ fun a => ?_
    rw [hmem, mem_of_ldBVx hI h]
    obtain ⟨hhundreds, htens, hones⟩ := memRead_writeRun_decimalDigits s.mem s.I.toNat (getV s x)
    refine ⟨fun ha => ha ▸ hhundreds, fun ha => ha ▸ htens, fun ha => ha ▸ hones, fun ha => ?_⟩
    exact memRead_writeRun_outside _ _ _ _ (by rw [decimalDigits_length]; omega)

end Sys2Proof.Machine
end

section
/-! The decoder's field cut as numbers (30_encoding.md R91), and family `0` (R99): below `0x1000` the field `nnn` is the
whole word, so the decoder tells CLS, RET and the plain jumps apart by the word itself. -/

namespace Sys2Proof.Machine

section Fields

variable (op : Word)

/-! The fields as numbers (R91). -/

/-- The top field needs no reduction: the bits from 12 up are all there are. -/
theorem fieldTop_toNat : (fieldTop op).toNat = op.toNat / 4096 := by
  have hop := op.isLt
  rw [fieldTop, BitVec.extractLsb'_toNat, Nat.shiftRight_eq_div_pow]
  exact Nat.mod_eq_of_lt (by omega)

theorem fieldNnn_toNat : (fieldNnn op).toNat = op.toNat % 4096 := BitVec.extractLsb'_toNat ..

theorem fieldX_toNat : (fieldX op).toNat = op.toNat / 256 % 16 := by
  rw [fieldX, BitVec.extractLsb'_toNat, Nat.shiftRight_eq_div_pow]

theorem fieldY_toNat : (fieldY op).toNat = op.toNat / 16 % 16 := by
  rw [fieldY, BitVec.extractLsb'_toNat, Nat.shiftRight_eq_div_pow]

theorem fieldN_toNat : (fieldN op).toNat = op.toNat % 16 := BitVec.extractLsb'_toNat ..

theorem fieldKk_toNat : (fieldKk op).toNat = op.toNat % 256 := BitVec.extractLsb'_toNat ..

end Fields

/-- Settles O4: the six fields, each as a number. -/
theorem fieldCut : Obligations.FieldCut := fun op =>
  ⟨fieldTop_toNat op, fieldNnn_toNat op, fieldX_toNat op, fieldY_toNat op, fieldN_toNat op, fieldKk_toNat op⟩

/-! Family `0` (R99): the words below `0x1000`. -/

section FamilyZero

variable {op : Word} (hop : op.toNat < 0x1000)
include hop

theorem fieldTop_eq_zero_of_lt : fieldTop op = 0 := by
  apply BitVec.eq_of_toNat_eq
  rw [fieldTop_toNat]
  exact Nat.div_eq_of_lt hop

/-- In family `0` the field `nnn` loses nothing of the word. -/
theorem setWidth_fieldNnn_of_lt : (fieldNnn op).setWidth 16 = op := by
  apply BitVec.eq_of_toNat_eq
  rw [BitVec.toNat_setWidth_of_le (by decide), fieldNnn_toNat]
  exact Nat.mod_eq_of_lt hop

theorem decodeWord_of_lt : decodeWord op = decodeFamily0 op := if_pos (fieldTop_eq_zero_of_lt hop)

/-- A word other than the two exceptions is a plain jump: an `nnn` of `0x0E0` or `0x0EE` would make it one of them. -/
theorem decodeWord_sysNnn_of_lt (hcls : op ≠ 0x00E0) (hret : op ≠ 0x00EE) :
    decodeWord op = .sysNnn (fieldNnn op) := by
  have hnnn := setWidth_fieldNnn_of_lt hop
  have h0E0 : fieldNnn op ≠ 0x0E0 := fun h => hcls (by rw [← hnnn, h]; rfl)
  have h0EE : fieldNnn op ≠ 0x0EE := fun h => hret (by rw [← hnnn, h]; rfl)
  rw [decodeWord_of_lt hop, decodeFamily0, if_neg h0E0, if_neg h0EE]

end FamilyZero

/-- The plain jump never faults, and it is the shared jump (R142). -/
theorem exec_sysNnn (nnn : Addr) (s : State) : exec (.sysNnn nnn) s = .next (jump nnn s) := rfl

/-- Settles O8: the two exceptions by evaluation, every other word as a jump to its `nnn`, which is the word. -/
theorem familyZero : Obligations.FamilyZero := by
  intro op hop
  refine ⟨?cls, ?ret, ?sys⟩
  case cls => rintro rfl; rfl
  case ret => rintro rfl; rfl
  case sys =>
    intro hcls hret
    have hdec := decodeWord_sysNnn_of_lt hop hcls hret
    refine ⟨fieldNnn op, hdec, fun s => ⟨jump (fieldNnn op) s, ?_, ?_, jump_changes s _⟩⟩
    · rw [hdec, exec_sysNnn]
    · rw [jump_pc, setWidth_fieldNnn_of_lt hop]

end Sys2Proof.Machine
end

section
/-! The jumps (41_flow.md R140 to R145): each is one write of `pc`, so that its target, its frame, the next step's fetch
fault (20_memory.md R65) and the jump to itself all follow from that write. -/

namespace Sys2Proof.Machine

/-! The words of the jumps: format `A` with the top field of the family. -/

theorem decodeWord_formatA_sysNnn {nnn : Addr} (hcls : nnn ≠ 0x0E0) (hret : nnn ≠ 0x0EE) :
    decodeWord (formatA 0x0 nnn) = .sysNnn nnn := by
  rw [decodeWord, if_pos (fieldTop_formatA ..), decodeFamily0, fieldNnn_formatA, if_neg hcls, if_neg hret]

theorem decodeWord_formatA_jpNnn (nnn : Addr) : decodeWord (formatA 0x1 nnn) = .jpNnn nnn := by
  simp [decodeWord]

theorem decodeWord_formatA_jpV0Nnn (nnn : Addr) : decodeWord (formatA 0xB nnn) = .jpV0Nnn nnn := by
  simp [decodeWord]

/-! The step's two cases in which the core is not halted (40_step_cycle.md R128), each from its own condition. -/

section Steps

variable {s : State} (hfault : s.fault = .none)
include hfault

theorem step_of_pc_gt (hpc : 0xFFE < s.pc.toNat) : step s = raise .fetchAddress (tickTimers s) := by
  rcases step_cases s with ⟨hhalted, _⟩ | ⟨_, _, hs⟩ | ⟨op, _, hfetch, _⟩
  · exact absurd hfault hhalted
  · exact hs
  · exact absurd (fetchWord_eq_some.mp hfetch).1 (Nat.not_le.mpr hpc)

theorem step_of_fetchWord {op : Word} (hfetch : fetchWord s = some op) :
    step s = exec (decodeWord op) (tickTimers s) := by
  rcases step_cases s with ⟨hhalted, _⟩ | ⟨_, hpc, _⟩ | ⟨op', _, hfetch', hs⟩
  · exact absurd hfault hhalted
  · exact absurd (fetchWord_eq_some.mp hfetch).1 (Nat.not_le.mpr hpc)
  · rwa [Option.some.inj (hfetch.symm.trans hfetch')]

end Steps

/-! The jumps as writes of `pc`. -/

section Jumps

variable {s t : State} {nnn : Addr}

theorem exec_jpNnn (nnn : Addr) (s : State) : exec (.jpNnn nnn) s = .next (jump nnn s) := rfl

/-- The target of `Bnnn` (R145), kept in 16 bits. -/
theorem exec_jpV0Nnn (nnn : Addr) (s : State) :
    exec (.jpV0Nnn nnn) s = .next (setPc ((getV s 0).setWidth 16 + nnn.setWidth 16) s) := rfl

theorem jump_pc_toNat (nnn : Addr) (s : State) : (jump nnn s).pc.toNat = nnn.toNat := by
  rw [jump_pc, BitVec.toNat_setWidth_of_le (by decide)]

/-- A byte and a 12-bit address add up below `0x10FF`, so the 16-bit sum of `Bnnn` never wraps. -/
theorem setWidth_add_setWidth_toNat (v : Byte) (nnn : Addr) :
    (v.setWidth 16 + nnn.setWidth 16 : Word).toNat = v.toNat + nnn.toNat := by
  have hv := v.isLt
  have hnnn := nnn.isLt
  rw [BitVec.toNat_add, BitVec.toNat_setWidth_of_le (by decide), BitVec.toNat_setWidth_of_le (by decide)]
  exact Nat.mod_eq_of_lt (by omega)

/-- A jump leaves the latch as it was, whichever of the three it is. -/
theorem fault_of_jump {i : Instr} (hi : i = .sysNnn nnn ∨ i = .jpNnn nnn ∨ i = .jpV0Nnn nnn)
    (h : exec i s = .next t) : t.fault = s.fault := by
  rcases hi with rfl | rfl | rfl <;> cases h <;> rfl

/-- A jump to where `pc` already stands changes nothing. -/
theorem jump_eq_self (hpc : s.pc.toNat = nnn.toNat) : jump nnn s = s := by
  have htarget : nnn.setWidth 16 = s.pc :=
    BitVec.eq_of_toNat_eq (by rw [BitVec.toNat_setWidth_of_le (by decide), hpc])
  rw [jump, htarget]
  rfl

/-- A step that fetches a jump to its own address does nothing after the timers. -/
theorem step_selfJump (hfault : s.fault = .none) (hfetch : fetchWord s = some (formatA 0x1 nnn))
    (hpc : s.pc.toNat = nnn.toNat) : step s = .next (tickTimers s) := by
  rw [step_of_fetchWord hfault hfetch, decodeWord_formatA_jpNnn, exec_jpNnn, jump_eq_self (s := tickTimers s) hpc]

end Jumps

/-- Settles O23: word, target and frame of each jump, then the fetch fault at a target that cannot be fetched, and the
jump to itself. -/
theorem jumps : Obligations.Jumps := by
  intro s nnn
  refine ⟨decodeWord_formatA_sysNnn, ⟨_, exec_sysNnn nnn s, jump_pc_toNat nnn s, jump_changes s nnn⟩,
    decodeWord_formatA_jpNnn nnn, ⟨_, exec_jpNnn nnn s, jump_pc_toNat nnn s, jump_changes s nnn⟩,
    decodeWord_formatA_jpV0Nnn nnn,
    ⟨_, exec_jpV0Nnn nnn s, setWidth_add_setWidth_toNat _ nnn, setPc_changes s _⟩, ?nextFault, ?selfJump⟩
  case nextFault =>
    intro i t hi h hfault hpc
    exact ⟨_, step_of_pc_gt ((fault_of_jump hi h).trans hfault) hpc, rfl⟩
  case selfJump =>
    intro hfault hfetch hpc
    exact ⟨_, step_selfJump hfault hfetch hpc, tickTimers_changes s⟩

end Sys2Proof.Machine
end

section
/-! The skips on registers (42_skip.md R155 to R159): each is the shared skip under its own comparison, so that the target
and the frame follow once for all four. -/

namespace Sys2Proof.Machine

/-! The words of the skips: format `XK`, and format `XY` with low nibble 0 (30_encoding.md R96 rows 6, 7, 8 and 20). -/

section Words

variable (x y : Nibble) (kk : Byte)

theorem decodeWord_formatXK_seVxKk : decodeWord (formatXK 0x3 x kk) = .seVxKk x kk := by
  simp [decodeWord]

theorem decodeWord_formatXK_sneVxKk : decodeWord (formatXK 0x4 x kk) = .sneVxKk x kk := by
  simp [decodeWord]

theorem decodeWord_formatXY_seVxVy : decodeWord (formatXY 0x5 x y 0) = .seVxVy x y := by
  simp [decodeWord, whenNibbleZero]

theorem decodeWord_formatXY_sneVxVy : decodeWord (formatXY 0x9 x y 0) = .sneVxVy x y := by
  simp [decodeWord, whenNibbleZero]

end Words

/-! The skips as the shared skip: none of them can fault (R155). -/

section Skips

variable (x y : Nibble) (kk : Byte) (s : State)

theorem exec_seVxKk : exec (.seVxKk x kk) s = .next (skipIf (getV s x == kk) s) := rfl

theorem exec_sneVxKk : exec (.sneVxKk x kk) s = .next (skipIf (getV s x != kk) s) := rfl

theorem exec_seVxVy : exec (.seVxVy x y) s = .next (skipIf (getV s x == getV s y) s) := rfl

theorem exec_sneVxVy : exec (.sneVxVy x y) s = .next (skipIf (getV s x != getV s y) s) := rfl

end Skips

/-- An instruction that is the shared skip goes 4 bytes on exactly when its comparison `P` holds, and writes only `pc`. -/
theorem exists_next_of_exec_skipIf {i : Instr} {s : State} {c : Bool} {P : Prop} [Decidable P]
    (hexec : exec i s = .next (skipIf c s)) (hc : c = true ↔ P) :
    ∃ t, exec i s = .next t ∧ t.pc = (if P then s.pc + 4 else s.pc + 2) ∧ ChangesOnly (fun p => p = .pc) s t :=
  ⟨skipIf c s, hexec, (skipIf_pc s c).trans (if_congr hc rfl rfl), skipIf_changes s c⟩

/-- Settles O27: each word decodes to its skip, and each skip is the shared one under the comparison it names. -/
theorem registerSkips : Obligations.RegisterSkips := fun s x y kk =>
  ⟨decodeWord_formatXK_seVxKk x kk, exists_next_of_exec_skipIf (exec_seVxKk x kk s) beq_iff_eq,
    decodeWord_formatXK_sneVxKk x kk, exists_next_of_exec_skipIf (exec_sneVxKk x kk s) bne_iff_ne,
    decodeWord_formatXY_seVxVy x y, exists_next_of_exec_skipIf (exec_seVxVy x y s) beq_iff_eq,
    decodeWord_formatXY_sneVxVy x y, exists_next_of_exec_skipIf (exec_sneVxVy x y s) bne_iff_ne⟩

end Sys2Proof.Machine
end

section
/-! The constants (43_const_random.md R166 to R168): each is one write, of a register or of `I`, followed by the shared
advance of `pc`, so that values and frames are those of the write with `pc` beside it. -/

namespace Sys2Proof.Machine

/-! The words of the constants: formats `XK` and `A` (30_encoding.md R96 rows 9, 10 and 21). -/

section ConstantWords

variable (x : Nibble) (kk : Byte)

theorem decodeWord_formatXK_ldVxKk : decodeWord (formatXK 0x6 x kk) = .ldVxKk x kk := by
  simp [decodeWord]

theorem decodeWord_formatXK_addVxKk : decodeWord (formatXK 0x7 x kk) = .addVxKk x kk := by
  simp [decodeWord]

theorem decodeWord_formatA_ldINnn (nnn : Addr) : decodeWord (formatA 0xA nnn) = .ldINnn nnn := by
  simp [decodeWord]

end ConstantWords

/-! The constants as a write followed by the advance: none of them can fault. -/

section Constants

variable (x : Nibble) (kk : Byte) (s : State)

theorem exec_ldVxKk : exec (.ldVxKk x kk) s = .next (advance (setV x kk s)) := rfl

theorem exec_addVxKk : exec (.addVxKk x kk) s = .next (advance (setV x (getV s x + kk) s)) := rfl

theorem exec_ldINnn (nnn : Addr) : exec (.ldINnn nnn) s = .next (advance (setI (nnn.setWidth 16) s)) := rfl

end Constants

/-- Advancing after an update adds `pc` to the update's frame, and nothing else. -/
theorem ChangesOnly.advance {w : Part → Prop} {s t : State} (h : ChangesOnly w s t) :
    ChangesOnly (fun p => p = .pc ∨ w p) s (advance t) :=
  (h.trans (advance_changes t)).mono fun _ => Or.symm

/-- An instruction that writes `v` to `V[x]` and advances: what holds of `v` holds of `V[x]` afterwards, and no register
but `V[x]` is written. -/
theorem exists_next_of_exec_setV {i : Instr} {s : State} {x : Nibble} {v : Byte} (P : Byte → Prop)
    (hexec : exec i s = .next (advance (setV x v s))) (hv : P v) :
    ∃ t, exec i s = .next t ∧ P (getV t x) ∧ t.pc = s.pc + 2 ∧ ChangesOnly (fun p => p = .pc ∨ p = .V x) s t := by
  refine ⟨_, hexec, ?_, rfl, (setV_changes s x v).advance⟩
  rwa [getV_advance, getV_setV_same]

/-- Settles O28: each word decodes to its instruction; the sum of 8-bit words is the sum modulo 256, and widening `nnn`
to 16 bits keeps its value. -/
theorem constants : Obligations.Constants := fun s x kk nnn =>
  ⟨decodeWord_formatXK_ldVxKk x kk, exists_next_of_exec_setV (· = kk) (exec_ldVxKk x kk s) rfl,
    decodeWord_formatXK_addVxKk x kk,
    exists_next_of_exec_setV (·.toNat = _) (exec_addVxKk x kk s) (BitVec.toNat_add ..),
    decodeWord_formatA_ldINnn nnn,
    _, exec_ldINnn s nnn, BitVec.toNat_setWidth_of_le (by decide), rfl, (setI_changes s _).advance⟩

end Sys2Proof.Machine
end

section
/-! The add with carry (44_alu.md R180): the sum into `V[x]` first, the carry into the flag register last, so that the
carry is what remains when `V[x]` is the flag register (decision D16). -/

namespace Sys2Proof.Machine

/-! The words of family `8` (30_encoding.md R94): the top field leads to the second level, the low nibble. -/

theorem decodeWord_formatXY_8 (x y n : Nibble) :
    decodeWord (formatXY 0x8 x y n) = decodeFamily8 (formatXY 0x8 x y n) := by
  simp [decodeWord]

theorem decodeWord_formatXY_addVxVy (x y : Nibble) : decodeWord (formatXY 0x8 x y 0x4) = .addVxVy x y := by
  rw [decodeWord_formatXY_8]
  simp [decodeFamily8]

/-! A register after a write of the flag (10_state.md R22). -/

theorem getV_setFlag_flagReg (b : Bool) (s : State) : getV (setFlag b s) flagReg = if b then 1 else 0 :=
  getV_setV_same s flagReg _

theorem getV_setFlag_other {y : Nibble} (hy : y ≠ flagReg) (b : Bool) (s : State) :
    getV (setFlag b s) y = getV s y :=
  getV_setV_other s hy.symm _

/-- A register write followed by a flag write touches those two registers, which may be one. -/
theorem setFlag_setV_changes (b : Bool) (x : Nibble) (v : Byte) (s : State) :
    ChangesOnly (fun p => p = .V x ∨ p = .V flagReg) s (setFlag b (setV x v s)) :=
  (setV_changes s x v).trans (setFlag_changes _ b)

/-! The instruction as those two writes and the advance (R180): it cannot fault. -/

theorem exec_addVxVy (x y : Nibble) (s : State) :
    exec (.addVxVy x y) s =
      .next (advance (setFlag (carryOut (getV s x) (getV s y)) (setV x (sumLow (getV s x) (getV s y)) s))) := rfl

/-- The carry as the byte the flag register takes. -/
theorem ite_carryOut (a b : Byte) :
    (if carryOut a b then 1 else 0 : Byte) = if 255 < a.toNat + b.toNat then 1 else 0 := by
  simp only [carryOut_eq, decide_eq_true_eq]

/-- Settles O31: the flag write leaves the sum in `V[x]` unless `V[x]` is the flag register, and its own value is the
carry in every case. -/
theorem addWithCarryOut : Obligations.AddWithCarryOut := by
  intro s x y
  refine ⟨decodeWord_formatXY_addVxVy x y, _, exec_addVxVy x y s, rfl, ?sum, ?carry,
    (setFlag_setV_changes _ x _ s).advance⟩
  case sum =>
    intro hx
    rw [getV_advance, getV_setFlag_other hx, getV_setV_same, sumLow_toNat]
  case carry => exact (getV_setFlag_flagReg _ _).trans (ite_carryOut _ _)

end Sys2Proof.Machine
end

section
/-! The copy and the bitwise operations (44_alu.md R176 to R179): each is one register write followed by the shared
advance, so that the flag register is touched only as `V[x]`. -/

namespace Sys2Proof.Machine

section CopyAndLogic

variable (x y : Nibble)

/-! The words: family `8` with low nibbles 0 to 3. -/

theorem decodeWord_formatXY_ldVxVy : decodeWord (formatXY 0x8 x y 0x0) = .ldVxVy x y := by
  rw [decodeWord_formatXY_8]
  simp [decodeFamily8]

theorem decodeWord_formatXY_orVxVy : decodeWord (formatXY 0x8 x y 0x1) = .orVxVy x y := by
  rw [decodeWord_formatXY_8]
  simp [decodeFamily8]

theorem decodeWord_formatXY_andVxVy : decodeWord (formatXY 0x8 x y 0x2) = .andVxVy x y := by
  rw [decodeWord_formatXY_8]
  simp [decodeFamily8]

theorem decodeWord_formatXY_xorVxVy : decodeWord (formatXY 0x8 x y 0x3) = .xorVxVy x y := by
  rw [decodeWord_formatXY_8]
  simp [decodeFamily8]

/-! The instructions as a write of `V[x]`: none of them can fault. -/

variable (s : State)

theorem exec_ldVxVy : exec (.ldVxVy x y) s = .next (advance (setV x (getV s y) s)) := rfl

theorem exec_orVxVy : exec (.orVxVy x y) s = .next (advance (setV x (getV s x ||| getV s y) s)) := rfl

theorem exec_andVxVy : exec (.andVxVy x y) s = .next (advance (setV x (getV s x &&& getV s y) s)) := rfl

theorem exec_xorVxVy : exec (.xorVxVy x y) s = .next (advance (setV x (getV s x ^^^ getV s y) s)) := rfl

end CopyAndLogic

/-- Settles O30: each word decodes to its instruction, and each instruction is one write of `V[x]`. -/
theorem copyAndLogic : Obligations.CopyAndLogic := fun s x y =>
  ⟨decodeWord_formatXY_ldVxVy x y, exists_next_of_exec_setV (· = _) (exec_ldVxVy x y s) rfl,
    decodeWord_formatXY_orVxVy x y, exists_next_of_exec_setV (· = _) (exec_orVxVy x y s) rfl,
    decodeWord_formatXY_andVxVy x y, exists_next_of_exec_setV (· = _) (exec_andVxVy x y s) rfl,
    decodeWord_formatXY_xorVxVy x y, exists_next_of_exec_setV (· = _) (exec_xorVxVy x y s) rfl⟩

end Sys2Proof.Machine
end

section
/-! The cleared screen (45_display.md R197): one write of the whole picture, followed by the shared advance of `pc`. -/

namespace Sys2Proof.Machine

/-- The word of the clear: the first of the two exceptions in family `0` (R99). -/
theorem decodeWord_00E0 : decodeWord 0x00E0 = .cls :=
  (decodeWord_of_lt (by decide)).trans (if_pos rfl)

/-- The clear never faults, and the picture it writes does not depend on the old one. -/
theorem exec_cls (s : State) : exec .cls s = .next (advance (setFb clearedFb s)) := rfl

/-- A write of a whole picture touches cells alone, whatever the picture is. -/
theorem setFb_changesCells (f : Framebuffer) (s : State) :
    ChangesOnly (fun p => ∃ i, p = .cell i) s (setFb f s) :=
  (setFb_changes s f (fun _ => True) fun _ h => absurd trivial h).mono fun _ ⟨i, _, hp⟩ => ⟨i, hp⟩

/-- Settles O34: the picture written has no lit cell, and the rest is the frame of that write with `pc` beside it. -/
theorem clearScreen : Obligations.ClearScreen :=
  ⟨decodeWord_00E0, fun s =>
    ⟨_, exec_cls s, cell_cleared, rfl, (setFb_changesCells clearedFb s).advance⟩⟩

end Sys2Proof.Machine
end

section
/-! The key wait (46_keys_timers.md R214): the smallest set key decides between one register write with the advance and
no change at all, which a step turns into the timers' decrement alone. -/

namespace Sys2Proof.Machine

/-! The words of family `F` (30_encoding.md R94): the top field leads to the second level, the low byte. -/

theorem decodeWord_formatXK_F (x : Nibble) (kk : Byte) :
    decodeWord (formatXK 0xF x kk) = decodeFamilyF (formatXK 0xF x kk) := by
  simp [decodeWord]

theorem decodeWord_formatXK_ldVxK (x : Nibble) : decodeWord (formatXK 0xF x 0x0A) = .ldVxK x := by
  rw [decodeWord_formatXK_F]
  simp [decodeFamilyF]

/-- A step that fetches a word of instruction `i` is `i` after the timers (R121, R128). -/
theorem step_of_decodeWord {s : State} {op : Word} {i : Instr} (hfault : s.fault = .none)
    (hfetch : fetchWord s = some op) (hdec : decodeWord op = i) : step s = exec i (tickTimers s) :=
  hdec ▸ step_of_fetchWord hfault hfetch

theorem lowestKey_eq_none_of_keySet {s : State} (hkeys : ∀ k, k < 16 → keySet s k = false) : lowestKey s = none := by
  cases hlow : lowestKey s with
  | none => rfl
  | some k =>
    obtain ⟨hk, hset, _⟩ := lowestKey_eq_some.mp hlow
    exact absurd ((hkeys k hk).symm.trans hset) Bool.false_ne_true

/-! The instruction with a smallest key and without one: it cannot fault. -/

section KeyWait

variable {s : State} (x : Nibble)

theorem exec_ldVxK_of_some {k : Nat} (hlow : lowestKey s = some k) :
    exec (.ldVxK x) s = .next (advance (setV x (BitVec.ofNat 8 k) s)) := by
  simp [exec, execLdVxK, hlow]

theorem exec_ldVxK_of_none (hlow : lowestKey s = none) : exec (.ldVxK x) s = .next s := by
  simp [exec, execLdVxK, hlow]

end KeyWait

/-- Settles O38: a key number fits the byte `V[x]` takes; with no key set the wait changes nothing, before the timers'
decrement and after it alike, for that leaves the keys alone. -/
theorem keyWait : Obligations.KeyWait := by
  intro s x
  refine ⟨decodeWord_formatXK_ldVxK x, ?keyFound, ?noKey⟩
  case keyFound =>
    intro k hk hset hbelow
    have hexec := exec_ldVxK_of_some x (lowestKey_eq_some.mpr ⟨hk, hset, hbelow⟩)
    exact exists_next_of_exec_setV (·.toNat = k) hexec (Nat.mod_eq_of_lt (by omega))
  case noKey =>
    intro hkeys
    refine ⟨exec_ldVxK_of_none x (lowestKey_eq_none_of_keySet hkeys), fun op hfault hfetch hdec => ?_⟩
    have hlow : lowestKey (tickTimers s) = none := lowestKey_eq_none_of_keySet hkeys
    exact ⟨tickTimers s, (step_of_decodeWord hfault hfetch hdec).trans (exec_ldVxK_of_none x hlow),
      timerDown_toNat _, timerDown_toNat _, tickTimers_changes s⟩

end Sys2Proof.Machine
end

section
/-! The timer accesses (46_keys_timers.md R213, R215, R216): each is one write followed by the shared advance, and a step
runs it on the state whose timers are already decremented (R121, decision D10). -/

namespace Sys2Proof.Machine

section TimerAccesses

variable (x : Nibble)

/-! The words: family `F` with low bytes `07`, `15` and `18`. -/

theorem decodeWord_formatXK_ldVxDt : decodeWord (formatXK 0xF x 0x07) = .ldVxDt x := by
  rw [decodeWord_formatXK_F]
  simp [decodeFamilyF]

theorem decodeWord_formatXK_ldDtVx : decodeWord (formatXK 0xF x 0x15) = .ldDtVx x := by
  rw [decodeWord_formatXK_F]
  simp [decodeFamilyF]

theorem decodeWord_formatXK_ldStVx : decodeWord (formatXK 0xF x 0x18) = .ldStVx x := by
  rw [decodeWord_formatXK_F]
  simp [decodeFamilyF]

/-! The instructions as a write of `V[x]`, `DT` or `ST`: none of them can fault. -/

variable (s : State)

theorem exec_ldVxDt : exec (.ldVxDt x) s = .next (advance (setV x s.DT s)) := rfl

theorem exec_ldDtVx : exec (.ldDtVx x) s = .next (advance (setDT (getV s x) s)) := rfl

theorem exec_ldStVx : exec (.ldStVx x) s = .next (advance (setST (getV s x) s)) := rfl

end TimerAccesses

/-- What a step leads to when it fetches an instruction whose outcome after the timers is known. -/
theorem eq_of_step_of_exec {s t u : State} {op : Word} {i : Instr} (hfault : s.fault = .none)
    (hfetch : fetchWord s = some op) (hstep : step s = .next t) (hdec : decodeWord op = i)
    (hexec : exec i (tickTimers s) = .next u) : t = u :=
  Host.Outcome.next.inj (hstep.symm.trans ((step_of_decodeWord hfault hfetch hdec).trans hexec))

/-- Settles O39: word, value and frame of each access; then a step, which reads `DT` decremented and lets a timer's new
value, read from a register the decrement leaves alone, stand. -/
theorem timerAccess : Obligations.TimerAccess := by
  intro s x
  refine ⟨decodeWord_formatXK_ldVxDt x, exists_next_of_exec_setV (· = s.DT) (exec_ldVxDt x s) rfl,
    decodeWord_formatXK_ldDtVx x, ⟨_, exec_ldDtVx x s, rfl, rfl, (setDT_changes s _).advance⟩,
    decodeWord_formatXK_ldStVx x, ⟨_, exec_ldStVx x s, rfl, rfl, (setST_changes s _).advance⟩, ?inStep⟩
  case inStep =>
    intro t op hfault hfetch hstep
    refine ⟨fun hdec => ?readDT, fun hdec => ?setDT, fun hdec => ?setST⟩
    case readDT =>
      rw [eq_of_step_of_exec hfault hfetch hstep hdec (exec_ldVxDt x _), getV_advance, getV_setV_same, tickTimers_DT,
        timerDown_toNat]
    case setDT =>
      rw [eq_of_step_of_exec hfault hfetch hstep hdec (exec_ldDtVx x _), advance_DT, setDT_DT, getV_tickTimers]
    case setST =>
      rw [eq_of_step_of_exec hfault hfetch hstep hdec (exec_ldStVx x _), advance_ST, setST_ST, getV_tickTimers]

end Sys2Proof.Machine
end

section
/-! The glyph address (47_index_memory.md R227): one write of `I` followed by the shared advance of `pc`. -/

namespace Sys2Proof.Machine

/-- The word: family `F` with low byte `29`. -/
theorem decodeWord_formatXK_ldFVx (x : Nibble) : decodeWord (formatXK 0xF x 0x29) = .ldFVx x := by
  rw [decodeWord_formatXK_F]
  simp [decodeFamilyF]

/-- The instruction as a write of `I`: it cannot fault. -/
theorem exec_ldFVx (x : Nibble) (s : State) :
    exec (.ldFVx x) s = .next (advance (setI (glyphAddress (getV s x)) s)) := rfl

/-- Settles O41: five times a whole byte fits the 16 bits of `I`, so the address is exact. (`glyphAddress` alone is
the model's function.) -/
theorem ldFVx_glyphAddress : Obligations.GlyphAddress := fun s x =>
  ⟨decodeWord_formatXK_ldFVx x, _, exec_ldFVx x s, glyphAddress_toNat (getV s x), rfl, (setI_changes s _).advance⟩

end Sys2Proof.Machine
end

section
/-! The framebuffer read (70_reset_and_hazards.md R285): the 2048 cells in index order, with the core as it was. -/

namespace Sys2Proof.Machine

@[simp] theorem length_fbRead (s : State) : (fbRead s).length = 2048 := by
  simp [fbRead]

/-- The picture lists the cells by their index. -/
theorem getElem?_fbRead (s : State) {i : Nat} (hi : i < 2048) : (fbRead s)[i]? = some (cell s.fb i) := by
  simp [fbRead, List.getElem?_range hi]

theorem hostMove_fbRead (w : System) :
    hostMove .fbRead w = some (.picture (fbRead w.core), portUsed w.core w) := rfl

/-- Settles O50: column and row within the screen give an index within the picture. -/
theorem framebufferRead : Obligations.FramebufferRead := by
  intro w
  refine ⟨_, _, hostMove_fbRead w, portUsed_core _ w, length_fbRead w.core, fun x y hx hy => ?_⟩
  have hindex : x + 64 * y < 2048 := by omega
  exact getElem?_fbRead w.core hindex

end Sys2Proof.Machine
end

section
/-! Decoder and encoder as inverses (30_encoding.md sections 1 to 4): the fields of a word put together again are the
word, and an unknown word is one that the table of R98 lists. -/

namespace Sys2Proof.Machine

/-! A word is its fields, in each format (R91, R92). -/

theorem toNat_append_eq {m n : Nat} (a : BitVec m) (b : BitVec n) : (a ++ b).toNat = a.toNat * 2 ^ n + b.toNat := by
  rw [BitVec.toNat_append, ← Nat.shiftLeft_add_eq_or_of_lt b.isLt, Nat.shiftLeft_eq]

section Fields

variable (op : Word)

theorem formatA_fields : formatA (fieldTop op) (fieldNnn op) = op := by
  apply BitVec.eq_of_toNat_eq
  rw [formatA, toNat_append_eq, fieldTop_toNat, fieldNnn_toNat]
  omega

/-- The field `nnn` is the fields `x` and `kk`. -/
theorem fieldX_append_fieldKk : fieldX op ++ fieldKk op = fieldNnn op := by
  apply BitVec.eq_of_toNat_eq
  rw [toNat_append_eq, fieldX_toNat, fieldKk_toNat, fieldNnn_toNat]
  omega

/-- The field `kk` is the fields `y` and `n`. -/
theorem fieldY_append_fieldN : fieldY op ++ fieldN op = fieldKk op := by
  apply BitVec.eq_of_toNat_eq
  rw [toNat_append_eq, fieldY_toNat, fieldN_toNat, fieldKk_toNat]
  omega

theorem formatXK_fields : formatXK (fieldTop op) (fieldX op) (fieldKk op) = op := by
  conv_rhs => rw [← formatA_fields op, formatA, ← fieldX_append_fieldKk]
  exact BitVec.append_assoc

theorem formatXY_fields : formatXY (fieldTop op) (fieldX op) (fieldY op) (fieldN op) = op := by
  conv_rhs => rw [← formatXK_fields op, formatXK, ← fieldY_append_fieldN]
  exact BitVec.append_assoc

end Fields

/-! The words of the instructions that have none above (R96), and of the unknown ones (R98). -/

section Words

variable (x y n : Nibble) (kk : Byte) (nnn : Addr)

theorem decodeWord_formatA_callNnn : decodeWord (formatA 0x2 nnn) = .callNnn nnn := by
  simp [decodeWord]

theorem decodeWord_formatXK_rndVxKk : decodeWord (formatXK 0xC x kk) = .rndVxKk x kk := by
  simp [decodeWord]

theorem decodeWord_formatXY_drwVxVyN : decodeWord (formatXY 0xD x y n) = .drwVxVyN x y n := by
  simp [decodeWord]

theorem decodeWord_formatXY_subVxVy : decodeWord (formatXY 0x8 x y 0x5) = .subVxVy x y := by
  rw [decodeWord_formatXY_8]
  simp [decodeFamily8]

theorem decodeWord_formatXY_shrVx : decodeWord (formatXY 0x8 x y 0x6) = .shrVx x y := by
  rw [decodeWord_formatXY_8]
  simp [decodeFamily8]

theorem decodeWord_formatXY_subnVxVy : decodeWord (formatXY 0x8 x y 0x7) = .subnVxVy x y := by
  rw [decodeWord_formatXY_8]
  simp [decodeFamily8]

theorem decodeWord_formatXY_shlVx : decodeWord (formatXY 0x8 x y 0xE) = .shlVx x y := by
  rw [decodeWord_formatXY_8]
  simp [decodeFamily8]

theorem decodeWord_formatXK_skpVx : decodeWord (formatXK 0xE x 0x9E) = .skpVx x := by
  simp [decodeWord, decodeFamilyE]

theorem decodeWord_formatXK_sknpVx : decodeWord (formatXK 0xE x 0xA1) = .sknpVx x := by
  simp [decodeWord, decodeFamilyE]

theorem decodeWord_formatXK_addIVx : decodeWord (formatXK 0xF x 0x1E) = .addIVx x := by
  rw [decodeWord_formatXK_F]
  simp [decodeFamilyF]

theorem decodeWord_formatXK_ldBVx : decodeWord (formatXK 0xF x 0x33) = .ldBVx x := by
  rw [decodeWord_formatXK_F]
  simp [decodeFamilyF]

theorem decodeWord_formatXK_ldMemVx : decodeWord (formatXK 0xF x 0x55) = .ldMemVx x := by
  rw [decodeWord_formatXK_F]
  simp [decodeFamilyF]

theorem decodeWord_formatXK_ldVxMem : decodeWord (formatXK 0xF x 0x65) = .ldVxMem x := by
  rw [decodeWord_formatXK_F]
  simp [decodeFamilyF]

end Words

/-- The second level of family `8` that no row takes, as a range (R98). -/
theorem unknownNibble8_iff : ∀ n : Nibble, unknownNibble8 n = true ↔ 8 ≤ n.toNat ∧ n ≠ 0xE := by decide

theorem knownByteF_eq_false_iff (kk : Byte) :
    (!knownByteF kk) = true ↔ kk ∉ ([0x07, 0x0A, 0x15, 0x18, 0x1E, 0x29, 0x33, 0x55, 0x65] : List Byte) := by
  simp [knownByteF, and_assoc]

/-- The table of R98 in the fields of the word. -/
theorem unknownWord_iff (op : Word) : unknownWord op = true ↔
    (fieldTop op = 0x5 ∧ fieldN op ≠ 0) ∨ (fieldTop op = 0x9 ∧ fieldN op ≠ 0) ∨
    (fieldTop op = 0x8 ∧ (8 ≤ (fieldN op).toNat ∧ fieldN op ≠ 0xE)) ∨
    (fieldTop op = 0xE ∧ fieldKk op ≠ 0x9E ∧ fieldKk op ≠ 0xA1) ∨
    (fieldTop op = 0xF ∧ fieldKk op ∉ ([0x07, 0x0A, 0x15, 0x18, 0x1E, 0x29, 0x33, 0x55, 0x65] : List Byte)) := by
  rw [← unknownNibble8_iff, ← knownByteF_eq_false_iff]
  simp only [unknownWord, ← fieldTop.eq_def, ← fieldN.eq_def, ← fieldKk.eq_def, Bool.or_eq_true, Bool.and_eq_true,
    beq_iff_eq, bne_iff_ne]
  tauto

/-! The families whose second level has no row for some words (R94). -/

section Families

variable {op : Word}

theorem decodeWord_of_top_5 (htop : fieldTop op = 0x5) :
    decodeWord op = whenNibbleZero op (.seVxVy (fieldX op) (fieldY op)) := by
  simp [decodeWord, htop]

theorem decodeWord_of_top_8 (htop : fieldTop op = 0x8) : decodeWord op = decodeFamily8 op := by
  simp [decodeWord, htop]

theorem decodeWord_of_top_9 (htop : fieldTop op = 0x9) :
    decodeWord op = whenNibbleZero op (.sneVxVy (fieldX op) (fieldY op)) := by
  simp [decodeWord, htop]

theorem decodeWord_of_top_E (htop : fieldTop op = 0xE) : decodeWord op = decodeFamilyE op := by
  simp [decodeWord, htop]

theorem decodeWord_of_top_F (htop : fieldTop op = 0xF) : decodeWord op = decodeFamilyF op := by
  simp [decodeWord, htop]

end Families

/-- A word that R98 lists is the instruction `UNKNOWN`, in each of the five families it comes from. -/
theorem decodeWord_of_unknownWord {op : Word} (h : unknownWord op = true) : decodeWord op = .unknown op := by
  rcases (unknownWord_iff op).mp h with ⟨htop, hn⟩ | ⟨htop, hn⟩ | ⟨htop, hge, hn⟩ | ⟨htop, h9E, hA1⟩ | ⟨htop, hkk⟩
  · exact (decodeWord_of_top_5 htop).trans (if_neg hn)
  · exact (decodeWord_of_top_9 htop).trans (if_neg hn)
  · have hlow : ∀ k : Nibble, k.toNat < 8 → fieldN op ≠ k := fun k hk h => Nat.not_le.mpr hk (h ▸ hge)
    rw [decodeWord_of_top_8 htop, decodeFamily8]
    simpa [hlow] using hn
  · rw [decodeWord_of_top_E htop, decodeFamilyE, if_neg h9E, if_neg hA1]
  · simp only [List.mem_cons, not_or] at hkk
    obtain ⟨h07, h0A, h15, h18, h1E, h29, h33, h55, h65, -⟩ := hkk
    rw [decodeWord_of_top_F htop, decodeFamilyF, if_neg h07, if_neg h0A, if_neg h15, if_neg h18, if_neg h1E, if_neg h29,
      if_neg h33, if_neg h55, if_neg h65]

/-- The decoder undoes the encoder: each instruction's word has the fields it was built from. -/
theorem decodeWord_encode {i : Instr} (h : i.wellFormed = true) : decodeWord (encode i) = i := by
  cases i with
  | cls => exact decodeWord_00E0
  | ret => rfl
  | sysNnn nnn =>
    simp only [Instr.wellFormed, Bool.and_eq_true, bne_iff_ne] at h
    exact decodeWord_formatA_sysNnn h.1 h.2
  | jpNnn nnn => exact decodeWord_formatA_jpNnn nnn
  | callNnn nnn => exact decodeWord_formatA_callNnn nnn
  | seVxKk x kk => exact decodeWord_formatXK_seVxKk x kk
  | sneVxKk x kk => exact decodeWord_formatXK_sneVxKk x kk
  | seVxVy x y => exact decodeWord_formatXY_seVxVy x y
  | ldVxKk x kk => exact decodeWord_formatXK_ldVxKk x kk
  | addVxKk x kk => exact decodeWord_formatXK_addVxKk x kk
  | ldVxVy x y => exact decodeWord_formatXY_ldVxVy x y
  | orVxVy x y => exact decodeWord_formatXY_orVxVy x y
  | andVxVy x y => exact decodeWord_formatXY_andVxVy x y
  | xorVxVy x y => exact decodeWord_formatXY_xorVxVy x y
  | addVxVy x y => exact decodeWord_formatXY_addVxVy x y
  | subVxVy x y => exact decodeWord_formatXY_subVxVy x y
  | shrVx x y => exact decodeWord_formatXY_shrVx x y
  | subnVxVy x y => exact decodeWord_formatXY_subnVxVy x y
  | shlVx x y => exact decodeWord_formatXY_shlVx x y
  | sneVxVy x y => exact decodeWord_formatXY_sneVxVy x y
  | ldINnn nnn => exact decodeWord_formatA_ldINnn nnn
  | jpV0Nnn nnn => exact decodeWord_formatA_jpV0Nnn nnn
  | rndVxKk x kk => exact decodeWord_formatXK_rndVxKk x kk
  | drwVxVyN x y n => exact decodeWord_formatXY_drwVxVyN x y n
  | skpVx x => exact decodeWord_formatXK_skpVx x
  | sknpVx x => exact decodeWord_formatXK_sknpVx x
  | ldVxDt x => exact decodeWord_formatXK_ldVxDt x
  | ldVxK x => exact decodeWord_formatXK_ldVxK x
  | ldDtVx x => exact decodeWord_formatXK_ldDtVx x
  | ldStVx x => exact decodeWord_formatXK_ldStVx x
  | addIVx x => exact decodeWord_formatXK_addIVx x
  | ldFVx x => exact decodeWord_formatXK_ldFVx x
  | ldBVx x => exact decodeWord_formatXK_ldBVx x
  | ldMemVx x => exact decodeWord_formatXK_ldMemVx x
  | ldVxMem x => exact decodeWord_formatXK_ldVxMem x
  | unknown op => exact decodeWord_of_unknownWord h

/-- Settles O5: the two bytes of a word, high byte first, are the word again. -/
theorem decodeEncode : Obligations.DecodeEncode := by
  intro i hi
  refine ⟨decodeWord_encode hi, ?_⟩
  rw [encodeBytes, decode, wordOfBytes, highByte_append_lowByte, decodeWord_encode hi]

/-! Every word is the encoding of what it decodes to: one case per branch of the decoder. -/

/-- The instruction is well formed and its word is `op`. -/
def StandsFor (op : Word) (i : Instr) : Prop := i.wellFormed = true ∧ encode i = op

section StandsFor

variable {op : Word} {top : Nibble}

theorem formatA_of_top (h : fieldTop op = top) : formatA top (fieldNnn op) = op := h ▸ formatA_fields op

theorem formatXK_of_top (h : fieldTop op = top) : formatXK top (fieldX op) (fieldKk op) = op := h ▸ formatXK_fields op

theorem formatXY_of_top (h : fieldTop op = top) : formatXY top (fieldX op) (fieldY op) (fieldN op) = op :=
  h ▸ formatXY_fields op

theorem formatXY_of_top_n {n : Nibble} (h : fieldTop op = top) (hn : fieldN op = n) :
    formatXY top (fieldX op) (fieldY op) n = op := hn ▸ formatXY_of_top h

theorem standsFor_unknown (h : unknownWord op = true) : StandsFor op (.unknown op) := ⟨h, rfl⟩

/-- One test of the decoder: the instruction of the row when it holds, else what the further tests give. -/
theorem standsFor_ite {c : Prop} [Decidable c] {i j : Instr} (hi : c → StandsFor op i) (hj : ¬ c → StandsFor op j) :
    StandsFor op (if c then i else j) := by
  split
  · next h => exact hi h
  · next h => exact hj h

theorem standsFor_family0 (htop : fieldTop op = 0x0) : StandsFor op (decodeFamily0 op) := by
  refine standsFor_ite (fun h => ⟨rfl, ?cls⟩) fun hcls =>
    standsFor_ite (fun h => ⟨rfl, ?ret⟩) fun hret => ⟨?wf, formatA_of_top htop⟩
  case cls => exact (h ▸ formatA_of_top htop : formatA 0x0 0x0E0 = op)
  case ret => exact (h ▸ formatA_of_top htop : formatA 0x0 0x0EE = op)
  case wf => rw [Instr.wellFormed, Bool.and_eq_true, bne_iff_ne, bne_iff_ne]; exact ⟨hcls, hret⟩

theorem standsFor_whenNibbleZero {i : Instr} (hi : fieldN op = 0 → StandsFor op i)
    (hu : fieldN op ≠ 0 → unknownWord op = true) : StandsFor op (whenNibbleZero op i) :=
  standsFor_ite hi fun hn => standsFor_unknown (hu hn)

theorem eight_le_of_ne (n : Nibble) (h0 : n ≠ 0) (h1 : n ≠ 1) (h2 : n ≠ 2) (h3 : n ≠ 3) (h4 : n ≠ 4) (h5 : n ≠ 5)
    (h6 : n ≠ 6) (h7 : n ≠ 7) : 8 ≤ n.toNat := by
  bv_omega

/-- A row of format `XY` in family `top`: the low nibble is the second level. -/
theorem standsFor_of_n {n : Nibble} (htop : fieldTop op = top) (i : Instr) (hwf : i.wellFormed = true)
    (hi : encode i = formatXY top (fieldX op) (fieldY op) n) (hn : fieldN op = n) : StandsFor op i :=
  ⟨hwf, hi.trans (formatXY_of_top_n htop hn)⟩

theorem standsFor_family8 (htop : fieldTop op = 0x8) : StandsFor op (decodeFamily8 op) := by
  have row {n : Nibble} := standsFor_of_n (n := n) htop
  refine standsFor_ite (row _ rfl rfl) fun h0 => standsFor_ite (row _ rfl rfl) fun h1 =>
    standsFor_ite (row _ rfl rfl) fun h2 => standsFor_ite (row _ rfl rfl) fun h3 =>
    standsFor_ite (row _ rfl rfl) fun h4 => standsFor_ite (row _ rfl rfl) fun h5 =>
    standsFor_ite (row _ rfl rfl) fun h6 => standsFor_ite (row _ rfl rfl) fun h7 =>
    standsFor_ite (row _ rfl rfl) fun hE => standsFor_unknown ((unknownWord_iff op).mpr ?_)
  exact .inr (.inr (.inl ⟨htop, eight_le_of_ne _ h0 h1 h2 h3 h4 h5 h6 h7, hE⟩))

/-- A row of format `X` in family `top`: the low byte is the second level. -/
theorem standsFor_of_kk {kk : Byte} (htop : fieldTop op = top) (i : Instr) (hwf : i.wellFormed = true)
    (hi : encode i = formatXK top (fieldX op) kk) (hkk : fieldKk op = kk) : StandsFor op i :=
  ⟨hwf, hi.trans (hkk ▸ formatXK_of_top htop)⟩

theorem standsFor_familyE (htop : fieldTop op = 0xE) : StandsFor op (decodeFamilyE op) :=
  standsFor_ite (standsFor_of_kk htop _ rfl rfl) fun h9E =>
    standsFor_ite (standsFor_of_kk htop _ rfl rfl) fun hA1 =>
    standsFor_unknown ((unknownWord_iff op).mpr (.inr (.inr (.inr (.inl ⟨htop, h9E, hA1⟩)))))

theorem standsFor_familyF (htop : fieldTop op = 0xF) : StandsFor op (decodeFamilyF op) := by
  have row {kk : Byte} := standsFor_of_kk (kk := kk) htop
  refine standsFor_ite (row _ rfl rfl) fun h07 => standsFor_ite (row _ rfl rfl) fun h0A =>
    standsFor_ite (row _ rfl rfl) fun h15 => standsFor_ite (row _ rfl rfl) fun h18 =>
    standsFor_ite (row _ rfl rfl) fun h1E => standsFor_ite (row _ rfl rfl) fun h29 =>
    standsFor_ite (row _ rfl rfl) fun h33 => standsFor_ite (row _ rfl rfl) fun h55 =>
    standsFor_ite (row _ rfl rfl) fun h65 => standsFor_unknown ((unknownWord_iff op).mpr ?_)
  refine .inr (.inr (.inr (.inr ⟨htop, ?_⟩)))
  simp only [List.mem_cons, List.not_mem_nil, or_false, not_or]
  exact ⟨h07, h0A, h15, h18, h1E, h29, h33, h55, h65⟩

end StandsFor

/-- The last branch of the decoder is family `F`. -/
theorem eq_F_of_ne (n : Nibble) (h0 : n ≠ 0) (h1 : n ≠ 1) (h2 : n ≠ 2) (h3 : n ≠ 3) (h4 : n ≠ 4) (h5 : n ≠ 5)
    (h6 : n ≠ 6) (h7 : n ≠ 7) (h8 : n ≠ 8) (h9 : n ≠ 9) (hA : n ≠ 0xA) (hB : n ≠ 0xB) (hC : n ≠ 0xC) (hD : n ≠ 0xD)
    (hE : n ≠ 0xE) : n = 0xF := by
  have := eight_le_of_ne n h0 h1 h2 h3 h4 h5 h6 h7
  bv_omega

theorem decodeWord_standsFor (op : Word) : StandsFor op (decodeWord op) := by
  refine standsFor_ite standsFor_family0 fun h0 => ?_
  refine standsFor_ite (fun h => ⟨rfl, formatA_of_top h⟩) fun h1 => ?_
  refine standsFor_ite (fun h => ⟨rfl, formatA_of_top h⟩) fun h2 => ?_
  refine standsFor_ite (fun h => ⟨rfl, formatXK_of_top h⟩) fun h3 => ?_
  refine standsFor_ite (fun h => ⟨rfl, formatXK_of_top h⟩) fun h4 => ?_
  refine standsFor_ite (fun h => standsFor_whenNibbleZero (fun hn => ⟨rfl, formatXY_of_top_n h hn⟩)
    fun hn => (unknownWord_iff op).mpr (.inl ⟨h, hn⟩)) fun h5 => ?_
  refine standsFor_ite (fun h => ⟨rfl, formatXK_of_top h⟩) fun h6 => ?_
  refine standsFor_ite (fun h => ⟨rfl, formatXK_of_top h⟩) fun h7 => ?_
  refine standsFor_ite standsFor_family8 fun h8 => ?_
  refine standsFor_ite (fun h => standsFor_whenNibbleZero (fun hn => ⟨rfl, formatXY_of_top_n h hn⟩)
    fun hn => (unknownWord_iff op).mpr (.inr (.inl ⟨h, hn⟩))) fun h9 => ?_
  refine standsFor_ite (fun h => ⟨rfl, formatA_of_top h⟩) fun hA => ?_
  refine standsFor_ite (fun h => ⟨rfl, formatA_of_top h⟩) fun hB => ?_
  refine standsFor_ite (fun h => ⟨rfl, formatXK_of_top h⟩) fun hC => ?_
  refine standsFor_ite (fun h => ⟨rfl, formatXY_of_top h⟩) fun hD => ?_
  refine standsFor_ite standsFor_familyE fun hE => ?_
  exact standsFor_familyF (eq_F_of_ne _ h0 h1 h2 h3 h4 h5 h6 h7 h8 h9 hA hB hC hD hE)

/-- Settles O6: the decoder's branches, each of which keeps every field of the word. -/
theorem encodeDecode : Obligations.EncodeDecode := decodeWord_standsFor

/-- Settles O9: a decoded `UNKNOWN` is well formed, which is to say that R98 lists its word. -/
theorem unknownWords : Obligations.UnknownWords := by
  intro op
  rw [← unknownWord_iff]
  refine ⟨fun h => ?_, decodeWord_of_unknownWord⟩
  have hwf := (decodeWord_standsFor op).1
  rwa [h] at hwf

end Sys2Proof.Machine
end

section
/-! The opcode map as an ordered list of rows (30_encoding.md R95, R96): the row of the decoded instruction takes the
word, and no earlier row does. -/

namespace Sys2Proof.Machine

/-- The row of an instruction takes its word. -/
theorem row_takes_encode (i : Instr) : Laws.Encodes.Statement i := by
  cases i with
  | cls => exact Laws.Encodes.cls
  | ret => exact Laws.Encodes.ret
  | sysNnn nnn => exact Laws.Encodes.sysNnn nnn
  | jpNnn nnn => exact Laws.Encodes.jpNnn nnn
  | callNnn nnn => exact Laws.Encodes.callNnn nnn
  | seVxKk x kk => exact Laws.Encodes.seVxKk x kk
  | sneVxKk x kk => exact Laws.Encodes.sneVxKk x kk
  | seVxVy x y => exact Laws.Encodes.seVxVy x y
  | ldVxKk x kk => exact Laws.Encodes.ldVxKk x kk
  | addVxKk x kk => exact Laws.Encodes.addVxKk x kk
  | ldVxVy x y => exact Laws.Encodes.ldVxVy x y
  | orVxVy x y => exact Laws.Encodes.orVxVy x y
  | andVxVy x y => exact Laws.Encodes.andVxVy x y
  | xorVxVy x y => exact Laws.Encodes.xorVxVy x y
  | addVxVy x y => exact Laws.Encodes.addVxVy x y
  | subVxVy x y => exact Laws.Encodes.subVxVy x y
  | shrVx x y => exact Laws.Encodes.shrVx x y
  | subnVxVy x y => exact Laws.Encodes.subnVxVy x y
  | shlVx x y => exact Laws.Encodes.shlVx x y
  | sneVxVy x y => exact Laws.Encodes.sneVxVy x y
  | ldINnn nnn => exact Laws.Encodes.ldINnn nnn
  | jpV0Nnn nnn => exact Laws.Encodes.jpV0Nnn nnn
  | rndVxKk x kk => exact Laws.Encodes.rndVxKk x kk
  | drwVxVyN x y n => exact Laws.Encodes.drwVxVyN x y n
  | skpVx x => exact Laws.Encodes.skpVx x
  | sknpVx x => exact Laws.Encodes.sknpVx x
  | ldVxDt x => exact Laws.Encodes.ldVxDt x
  | ldVxK x => exact Laws.Encodes.ldVxK x
  | ldDtVx x => exact Laws.Encodes.ldDtVx x
  | ldStVx x => exact Laws.Encodes.ldStVx x
  | addIVx x => exact Laws.Encodes.addIVx x
  | ldFVx x => exact Laws.Encodes.ldFVx x
  | ldBVx x => exact Laws.Encodes.ldBVx x
  | ldMemVx x => exact Laws.Encodes.ldMemVx x
  | ldVxMem x => exact Laws.Encodes.ldVxMem x
  | unknown op => exact Laws.Encodes.unknown op

section Rows

variable {r q : OpcodeRow} {op : Word}

theorem takes_iff : r.takes op = true ↔ op &&& r.mask = r.pattern := beq_iff_eq

/-- Two rows that take one word agree in the bits both of them test. -/
theorem patterns_agree (hr : r.takes op = true) (hq : q.takes op = true) :
    r.pattern &&& q.mask = q.pattern &&& r.mask := by
  rw [← takes_iff.mp hr, ← takes_iff.mp hq, BitVec.and_assoc, BitVec.and_assoc, BitVec.and_comm r.mask]

/-- A field that a row tests in full is, in a word the row takes, the field of the row's match. -/
theorem field_of_takes {start len : Nat} (hr : r.takes op = true)
    (hmask : r.mask.extractLsb' start len = BitVec.allOnes len) :
    r.pattern.extractLsb' start len = op.extractLsb' start len := by
  rw [← takes_iff.mp hr, BitVec.extractLsb'_and, hmask, BitVec.and_allOnes]

end Rows

/-- Every row before the last tests the fields by which R98 would list a word, and its match is not listed. -/
theorem knownRows : ∀ r ∈ opcodeRows.take 35, unknownWord r.pattern = false ∧ fieldTop r.mask = 0xF ∧
    (fieldTop r.pattern ∈ ([0x5, 0x8, 0x9] : List Nibble) → fieldN r.mask = 0xF) ∧
    (fieldTop r.pattern ∈ ([0xE, 0xF] : List Nibble) → fieldKk r.mask = 0xFF) := by
  decide

/-- No row before the last takes an unknown word: the row's match would be unknown with it. -/
theorem not_takes_of_unknownWord {r : OpcodeRow} {op : Word} (hr : r ∈ opcodeRows.take 35)
    (hop : unknownWord op = true) : r.takes op = false := by
  obtain ⟨hknown, hmask, hN, hKk⟩ := knownRows r hr
  by_contra htakes
  rw [Bool.not_eq_false] at htakes
  have htop : fieldTop r.pattern = fieldTop op := field_of_takes htakes hmask
  have hn (h : fieldTop op ∈ ([0x5, 0x8, 0x9] : List Nibble)) : fieldN r.pattern = fieldN op :=
    field_of_takes htakes (hN (htop ▸ h))
  have hkk (h : fieldTop op ∈ ([0xE, 0xF] : List Nibble)) : fieldKk r.pattern = fieldKk op :=
    field_of_takes htakes (hKk (htop ▸ h))
  have hpattern : unknownWord r.pattern = true := by
    rw [unknownWord_iff, htop]
    rcases (unknownWord_iff op).mp hop with h | h | h | h | h
    · exact .inl (by rwa [hn (by simp [h])])
    · exact .inr (.inl (by rwa [hn (by simp [h])]))
    · exact .inr (.inr (.inl (by rwa [hn (by simp [h])])))
    · exact .inr (.inr (.inr (.inl (by rwa [hkk (by simp [h])]))))
    · exact .inr (.inr (.inr (.inr (by rwa [hkk (by simp [h])]))))
  exact Bool.false_ne_true (hknown.symm.trans hpattern)

/-- The rows of R96 do not overlap, but for `0nnn` with the two before it and for the last row. -/
theorem rows_conflict : ∀ k : Fin opcodeRows.length, k.val ≠ 2 → k.val ≠ 35 → ∀ j < k,
    opcodeRows[j].pattern &&& opcodeRows[k].mask ≠ opcodeRows[k].pattern &&& opcodeRows[j].mask := by
  decide

theorem rowIndex_lt (i : Instr) : i.rowIndex < opcodeRows.length := by
  obtain ⟨_, hrow, -⟩ := Option.map_eq_some_iff.mp (row_takes_encode i)
  exact (List.getElem?_eq_some_iff.mp hrow).1

theorem takes_rowIndex (i : Instr) : (opcodeRows[i.rowIndex]'(rowIndex_lt i)).takes (encode i) = true := by
  have h := row_takes_encode i
  rw [Laws.Encodes.Statement, List.getElem?_eq_getElem (rowIndex_lt i)] at h
  exact Option.some.inj h

/-! No row before an instruction's own takes its word. -/

section EarlierRows

variable {i : Instr} {j : Nat} (hj : j < i.rowIndex)

theorem not_takes_of_no_overlap (h2 : i.rowIndex ≠ 2) (h35 : i.rowIndex ≠ 35) :
    (opcodeRows[j]'(hj.trans (rowIndex_lt i))).takes (encode i) = false := by
  by_contra htakes
  rw [Bool.not_eq_false] at htakes
  exact rows_conflict ⟨_, rowIndex_lt i⟩ h2 h35 ⟨j, hj.trans (rowIndex_lt i)⟩ hj
    (patterns_agree htakes (takes_rowIndex i))

/-- A word that one of the two exceptions takes is that word, in all 16 bits. -/
theorem eq_of_takes_exception {op : Word} : ∀ j (hj : j < 2),
    (opcodeRows[j]'(hj.trans (by decide))).takes op = true → op = 0x00E0 ∨ op = 0x00EE
  | 0, _, h => .inl (BitVec.and_allOnes.symm.trans (takes_iff.mp h))
  | 1, _, h => .inr (BitVec.and_allOnes.symm.trans (takes_iff.mp h))

theorem not_takes_of_lt_rowIndex (hi : i.wellFormed = true) :
    (opcodeRows[j]'(hj.trans (rowIndex_lt i))).takes (encode i) = false := by
  cases i with
  | sysNnn nnn =>
    simp only [Instr.wellFormed, Bool.and_eq_true, bne_iff_ne] at hi
    by_contra htakes
    rw [Bool.not_eq_false] at htakes
    rcases eq_of_takes_exception j hj htakes with h | h
    · exact hi.1 ((fieldNnn_formatA 0x0 nnn).symm.trans (congrArg fieldNnn h))
    · exact hi.2 ((fieldNnn_formatA 0x0 nnn).symm.trans (congrArg fieldNnn h))
  | unknown op =>
    exact not_takes_of_unknownWord (List.mem_take_iff_getElem.mpr ⟨j, lt_min hj (hj.trans (rowIndex_lt _)), rfl⟩) hi
  | _ => exact not_takes_of_no_overlap hj nofun nofun

end EarlierRows

/-- Settles O7: every word is that of the instruction it decodes to, whose row is the first to take it. -/
theorem decodeTakesFirstRow : Obligations.DecodeTakesFirstRow := by
  intro op
  obtain ⟨hwf, henc⟩ := decodeWord_standsFor op
  have hrow := takes_rowIndex (decodeWord op)
  have hearlier := fun j hj => not_takes_of_lt_rowIndex (j := j) hj hwf
  rw [henc] at hrow
  simp only [henc] at hearlier
  exact (List.findIdx_eq (rowIndex_lt _)).mpr ⟨hrow, hearlier⟩

/-- Settles O10: nine words, evaluated. -/
theorem decodeSamples : Obligations.DecodeSamples := by
  unfold Obligations.DecodeSamples
  decide

end Sys2Proof.Machine
end

section
/-! What an instruction can do (40_step_cycle.md R126, 10_state.md R36, 60_exceptions.md R242): either its fault
condition holds and it takes the fault, or it answers a next state with the `pc` of the table of net changes and the
frame of its row. The statements about all instructions rest on these two. -/

namespace Sys2Proof.Machine

/-! The stack with one entry more and one entry less (10_state.md R27). -/

/-- The state with `v` pushed as entry `k`. -/
def pushed (v : Word) (k : Fin Config.stackDepth) (s : State) : State :=
  { s with stack := s.stack.set k v, sp := k.succ }

/-- The state with entry `k` popped. -/
def popped (k : Fin Config.stackDepth) (s : State) : State := { s with sp := k.castSucc }

section Stack

variable {s : State} {k : Fin Config.stackDepth}

theorem push_of_sp_eq (v : Word) (hk : s.sp.val = k.val) : push v s = some (pushed v k s) := by
  cases h : push v s with
  | none => exact absurd (hk ▸ push_eq_none.mp h) (Nat.ne_of_lt k.isLt)
  | some t =>
    obtain ⟨hlt, rfl⟩ := push_eq_some h
    simp [pushed, hk, Fin.ext_iff]

theorem pop_of_sp_eq (hk : s.sp.val = k.val + 1) : pop s = some (s.stack[k], popped k s) := by
  cases h : pop s with
  | none => exact absurd (hk ▸ pop_eq_none.mp h) (Nat.succ_ne_zero _)
  | some vt =>
    obtain ⟨v, t⟩ := vt
    obtain ⟨_, hlt, rfl, rfl⟩ := pop_eq_some h
    simp [popped, hk, Fin.ext_iff]

theorem pushed_changes (v : Word) (k : Fin Config.stackDepth) (s : State) :
    ChangesOnly (fun p => p = .sp ∨ p = .stack k) s (pushed v k s) := by
  intro p hp
  cases p with
  | stack j =>
    have hne : k.val ≠ j.val := fun h => hp (.inr (congrArg Part.stack (Fin.ext h.symm)))
    exact Vector.getElem_set_ne k.isLt j.isLt hne
  | sp => exact absurd (.inl rfl) hp
  | rnd => exact ⟨rfl, rfl⟩
  | _ => rfl

theorem popped_changes (k : Fin Config.stackDepth) (s : State) : ChangesOnly (fun p => p = .sp) s (popped k s) := by
  intro p hp
  cases p with
  | sp => exact absurd rfl hp
  | rnd => exact ⟨rfl, rfl⟩
  | _ => rfl

theorem exists_entry_of_ne_zero (hsp : s.sp.val ≠ 0) : ∃ k : Fin Config.stackDepth, s.sp.val = k.val + 1 :=
  ⟨s.sp.pred fun h => hsp (congrArg Fin.val h), by simp [Nat.sub_one_add_one hsp]⟩

theorem exists_free_of_ne_full (hsp : s.sp.val ≠ 16) : ∃ k : Fin Config.stackDepth, s.sp.val = k.val :=
  ⟨⟨s.sp.val, Nat.lt_of_le_of_ne (Nat.le_of_lt_succ s.sp.isLt) hsp⟩, rfl⟩

theorem exec_callNnn_of_sp_eq (nnn : Addr) (hk : s.sp.val = k.val) :
    exec (.callNnn nnn) s = .next (jump nnn (pushed (s.pc + 2) k s)) := by
  simp [exec, execCallNnn, push_of_sp_eq _ hk]

theorem exec_callNnn_of_full (nnn : Addr) (hsp : s.sp.val = 16) : exec (.callNnn nnn) s = raise .stackOverflow s := by
  simp [exec, execCallNnn, push_eq_none.mpr hsp]

theorem exec_ret_of_sp_eq (hk : s.sp.val = k.val + 1) : exec .ret s = .next (setPc s.stack[k] (popped k s)) := by
  simp [exec, execRet, pop_of_sp_eq hk]

theorem exec_ret_of_empty (hsp : s.sp.val = 0) : exec .ret s = raise .stackUnderflow s := by
  simp [exec, execRet, pop_eq_none.mpr hsp]

end Stack

/-! The instructions that write registers, as those writes (44_alu.md R181 to R184, 43_const_random.md R169,
47_index_memory.md R226, 40_step_cycle.md R127): none of them can fault. -/

section Writes

variable (x y : Nibble) (kk : Byte) (s : State)

/-- The flag first, then `V[x]` with `f` of the state so left: the shape of the subtractions and the shifts (R175). -/
def flagThenWrite (b : Bool) (x : Nibble) (f : State → Byte) (s : State) : State :=
  setV x (f (setFlag b s)) (setFlag b s)

theorem flagThenWrite_changes (b : Bool) (f : State → Byte) :
    ChangesOnly (fun p => p = .V x ∨ p = .V flagReg) s (flagThenWrite b x f s) :=
  ((setFlag_changes s b).trans (setV_changes _ x _)).mono fun _ => Or.symm

/-- The flag and then the difference `V[p] - V[q]` into `V[x]`: one subtraction for both words (R181, R183). -/
def subtracted (x p q : Nibble) (s : State) : State :=
  flagThenWrite (strictlyGreater (getV s p) (getV s q)) x (fun t => getV t p - getV t q) s

/-- The bit shifted out and then the shift to the right (R182). -/
def shiftedRight (x : Nibble) (s : State) : State := flagThenWrite (lowBit (getV s x)) x (fun t => getV t x >>> 1) s

/-- The bit shifted out and then the shift to the left (R184). -/
def shiftedLeft (x : Nibble) (s : State) : State := flagThenWrite (highBit (getV s x)) x (fun t => getV t x <<< 1) s

theorem exec_subVxVy : exec (.subVxVy x y) s = .next (advance (subtracted x x y s)) := rfl

theorem exec_subnVxVy : exec (.subnVxVy x y) s = .next (advance (subtracted x y x s)) := rfl

theorem exec_shrVx : exec (.shrVx x y) s = .next (advance (shiftedRight x s)) := rfl

theorem exec_shlVx : exec (.shlVx x y) s = .next (advance (shiftedLeft x s)) := rfl

theorem exec_rndVxKk : exec (.rndVxKk x kk) s = .next (advance (setV x (nextRnd s &&& kk) (drawRnd s))) := rfl

theorem setV_drawRnd_changes (v : Byte) : ChangesOnly (fun p => p = .V x ∨ p = .rnd) s (setV x v (drawRnd s)) :=
  ((drawRnd_changes s).trans (setV_changes _ x v)).mono fun _ => Or.symm

theorem exec_addIVx : exec (.addIVx x) s = .next (advance (setI (s.I + (getV s x).setWidth 16) s)) := rfl

theorem exec_unknown (op : Word) : exec (.unknown op) s = .next (advance s) := rfl

end Writes

/-! The instructions that check an operand first (20_memory.md R66, 46_keys_timers.md R211), on either side of the
check. -/

section Checked

variable {s : State} {x y n : Nibble}

theorem exec_skpVx_of_le (hV : (getV s x).toNat ≤ 15) :
    exec (.skpVx x) s = .next (skipIf (keySet s (getV s x).toNat) s) :=
  if_neg fun h => Nat.not_lt.mpr hV (of_decide_eq_true h)

theorem exec_skpVx_of_gt (hV : 15 < (getV s x).toNat) : exec (.skpVx x) s = raise .keyIndex s :=
  if_pos (decide_eq_true hV)

theorem exec_sknpVx_of_le (hV : (getV s x).toNat ≤ 15) :
    exec (.sknpVx x) s = .next (skipIf (!keySet s (getV s x).toNat) s) :=
  if_neg fun h => Nat.not_lt.mpr hV (of_decide_eq_true h)

theorem exec_sknpVx_of_gt (hV : 15 < (getV s x).toNat) : exec (.sknpVx x) s = raise .keyIndex s :=
  if_pos (decide_eq_true hV)

theorem exec_ldBVx_outOfRange (hI : 0xFFF < s.I.toNat + 2) : exec (.ldBVx x) s = raise .dataAddress s :=
  if_pos ((dataOutOfRange_succ s 2).trans (decide_eq_true hI))

theorem exec_ldMemVx_outOfRange (hI : 0xFFF < s.I.toNat + x.toNat) : exec (.ldMemVx x) s = raise .dataAddress s :=
  if_pos ((dataOutOfRange_succ s _).trans (decide_eq_true hI))

theorem exec_ldVxMem_outOfRange (hI : 0xFFF < s.I.toNat + x.toNat) : exec (.ldVxMem x) s = raise .dataAddress s :=
  if_pos ((dataOutOfRange_succ s _).trans (decide_eq_true hI))

theorem exec_ldVxMem_inRange (hI : s.I.toNat + x.toNat ≤ 0xFFF) :
    exec (.ldVxMem x) s = .next (advance (setVUpTo (memReadRun s.mem s.I.toNat (x.toNat + 1)) s)) := by
  have hr : dataOutOfRange s (x.toNat + 1) = false := by rw [dataOutOfRange_succ]; exact decide_eq_false (by omega)
  simp [exec, execLdVxMem, hr]

/-- The picture and the collision flag after a sprite of `n` rows at `I` is drawn at column `vx`, row `vy` (R198). -/
def spriteDrawn (s : State) (vx vy n : Nat) : Framebuffer × Bool :=
  drawRows vx vy (memReadRun s.mem s.I.toNat n) (s.fb, false)

theorem exec_drwVxVyN_outOfRange (hI : 0 < n.toNat ∧ 0xFFF < s.I.toNat + n.toNat - 1) :
    exec (.drwVxVyN x y n) s = raise .dataAddress s := if_pos (decide_eq_true hI)

theorem exec_drwVxVyN_inRange (hI : ¬ (0 < n.toNat ∧ 0xFFF < s.I.toNat + n.toNat - 1)) :
    exec (.drwVxVyN x y n) s =
      .next (advance (setFlag (spriteDrawn s (getV s x).toNat (getV s y).toNat n.toNat).2
        (setFb (spriteDrawn s (getV s x).toNat (getV s y).toNat n.toNat).1 s))) :=
  if_neg (fun h => hI (of_decide_eq_true h))

end Checked

/-! The frames of the three accesses to memory (47_index_memory.md R228 to R230). -/

section Accesses

variable (s : State)

theorem store_decimalDigits_changes (v : Byte) :
    ChangesOnly (fun p => ∃ a, s.I.toNat ≤ a ∧ a ≤ s.I.toNat + 2 ∧ p = .mem a) s
      (setMem (memWriteRun s.mem s.I.toNat (decimalDigits v)) s) :=
  (storeRun_changes s _ _).mono fun _ ⟨a, hge, hlt, hp⟩ => ⟨a, hge, Nat.le_of_lt_succ hlt, hp⟩

theorem store_getVUpTo_changes (x : Nibble) :
    ChangesOnly (fun p => ∃ a, s.I.toNat ≤ a ∧ a ≤ s.I.toNat + x.toNat ∧ p = .mem a) s
      (setMem (memWriteRun s.mem s.I.toNat (getVUpTo s x)) s) :=
  (storeRun_changes s _ _).mono fun _ ⟨a, hge, hlt, hp⟩ => ⟨a, hge, by rw [getVUpTo_length] at hlt; omega, hp⟩

theorem load_memReadRun_changes (x : Nibble) :
    ChangesOnly (fun p => ∃ r : Nibble, r.toNat ≤ x.toNat ∧ p = .V r) s
      (setVUpTo (memReadRun s.mem s.I.toNat (x.toNat + 1)) s) :=
  (setVUpTo_changes s _).mono fun _ ⟨r, hlt, hp⟩ => ⟨r, by rw [memReadRun_length] at hlt; omega, hp⟩

end Accesses

/-! What a draw does to the cells and to the flag (45_display.md R198). -/

section Drawing

variable {s : State} {vx vy n : Nat}

/-- The cells under the rows read from memory are those that the sprite covers. -/
theorem rowsCover_memReadRun {i : Nat} :
    rowsCover (memReadRun s.mem s.I.toNat n) vx vy i ↔ spriteCovers s vx vy n i := by
  constructor
  · rintro ⟨r, hr, c, hc, hbit, hi⟩
    rw [memReadRun_getElem] at hbit
    exact ⟨r, c, memReadRun_length s.mem s.I.toNat n ▸ hr, hc, hi, hbit⟩
  · rintro ⟨r, c, hr, hc, hi, hbit⟩
    refine ⟨r, (memReadRun_length s.mem s.I.toNat n).symm ▸ hr, c, hc, ?_, hi⟩
    rwa [memReadRun_getElem]

variable (hn : n ≤ 32)
include hn

open Classical in
/-- The draw in one statement: the covered cells flip, and the collision flag tells whether one of them was lit. -/
theorem spriteDrawn_spec :
    (∀ i, cell (spriteDrawn s vx vy n).1 i = (cell s.fb i ^^ decide (spriteCovers s vx vy n i))) ∧
    ((spriteDrawn s vx vy n).2 = true ↔ ∃ i, spriteCovers s vx vy n i ∧ cell s.fb i = true) := by
  have h := drawRows_spec vx vy (memReadRun s.mem s.I.toNat n) (by rwa [memReadRun_length]) (s.fb, false)
  simp only [rowsCover_memReadRun, Bool.false_eq_true, false_or] at h
  exact h

theorem cell_spriteDrawn_of_covers {i : Nat} (hi : spriteCovers s vx vy n i) :
    cell (spriteDrawn s vx vy n).1 i = !cell s.fb i := by
  simp [(spriteDrawn_spec hn).1, hi]

theorem cell_spriteDrawn_of_not_covers {i : Nat} (hi : ¬ spriteCovers s vx vy n i) :
    cell (spriteDrawn s vx vy n).1 i = cell s.fb i := by
  simp [(spriteDrawn_spec hn).1, hi]

/-- The flag and the picture written at the end of a draw touch the flag register and the covered cells. -/
theorem spriteDrawn_changes (b : Bool) :
    ChangesOnly (fun p => p = .V flagReg ∨ ∃ i, spriteCovers s vx vy n i ∧ p = .cell i) s
      (setFlag b (setFb (spriteDrawn s vx vy n).1 s)) :=
  ((setFb_changes s _ _ fun _ => cell_spriteDrawn_of_not_covers hn).trans (setFlag_changes _ b)).mono fun _ => Or.symm

end Drawing

/-- The sprite of a nibble's height fits the screen, so that no cell is covered twice. -/
theorem height_le (n : Nibble) : n.toNat ≤ 32 := by omega

/-! All instructions at once. -/

section Faults

variable {i : Instr} {s : State} {c : Cause}

theorem eq_raise_of_ite {p : Prop} [Decidable p] {c' : Cause} {o : Result} (h : (if p then some c' else none) = some c)
    (ho : p → o = raise c' s) : o = raise c s := by
  obtain ⟨hp, hc⟩ := Option.ite_none_right_eq_some.mp h
  rw [ho hp, Option.some.inj hc]

theorem not_of_ite_eq_none {p : Prop} [Decidable p] (h : (if p then some c else none) = none) : ¬ p :=
  fun hp => nomatch (if_pos hp).symm.trans h

/-- An instruction whose fault condition holds takes that fault (R242). -/
theorem exec_of_faultOf_some (h : faultOf i s = some c) : exec i s = raise c s := by
  cases i with
  | ret => exact eq_raise_of_ite h exec_ret_of_empty
  | callNnn nnn => exact eq_raise_of_ite h (exec_callNnn_of_full nnn)
  | drwVxVyN x y n => exact eq_raise_of_ite h exec_drwVxVyN_outOfRange
  | skpVx x => exact eq_raise_of_ite h exec_skpVx_of_gt
  | sknpVx x => exact eq_raise_of_ite h exec_sknpVx_of_gt
  | ldBVx x => exact eq_raise_of_ite h exec_ldBVx_outOfRange
  | ldMemVx x => exact eq_raise_of_ite h exec_ldMemVx_outOfRange
  | ldVxMem x => exact eq_raise_of_ite h exec_ldVxMem_outOfRange
  | _ => cases h

end Faults

/-- `t` is what instruction `i` leads to from `s` when it does not fault: `pc` by R126, all else by the frame of R36. -/
structure Leads (i : Instr) (s t : State) : Prop where
  exec_eq : exec i s = .next t
  pc_eq : t.pc = netPc i s
  frame : ChangesOnly (writes i s) s t

/-! The instructions whose next state depends on a comparison, on the stack or on the keys. -/

theorem leads_skipIf {i : Instr} {s : State} {c : Bool} {P : Prop} [Decidable P] (hexec : exec i s = .next (skipIf c s))
    (hc : c = true ↔ P) (hpc : netPc i s = if P then s.pc + 4 else s.pc + 2) (hwrites : writes i s = fun p => p = .pc) :
    ∃ t, Leads i s t :=
  ⟨_, hexec, ((skipIf_pc s c).trans (if_congr hc rfl rfl)).trans hpc.symm, hwrites ▸ skipIf_changes s c⟩

theorem leads_ret {s : State} (h : s.sp.val ≠ 0) : ∃ t, Leads .ret s t := by
  obtain ⟨k, hk⟩ := exists_entry_of_ne_zero h
  refine ⟨_, exec_ret_of_sp_eq hk, ?_, ((popped_changes k s).trans (setPc_changes _ _)).mono fun _ => Or.symm⟩
  simp [netPc, hk]

theorem leads_callNnn {s : State} (nnn : Addr) (h : s.sp.val ≠ 16) : ∃ t, Leads (.callNnn nnn) s t := by
  obtain ⟨k, hk⟩ := exists_free_of_ne_full h
  refine ⟨_, exec_callNnn_of_sp_eq nnn hk, rfl,
    ((pushed_changes _ _ s).trans (jump_changes _ nnn)).mono ?_⟩
  rintro p ((hp | hp) | hp)
  · exact .inr (.inl hp)
  · exact .inr (.inr ⟨k, hk.symm, hp⟩)
  · exact .inl hp

theorem leads_ldVxK (x : Nibble) (s : State) : ∃ t, Leads (.ldVxK x) s t := by
  cases hlow : lowestKey s with
  | none => exact ⟨s, exec_ldVxK_of_none x hlow, (if_neg (by simpa using lowestKey_eq_none.mp hlow)).symm, .refl _ s⟩
  | some k =>
    have hkeys : s.keys ≠ 0 := fun h => by rw [lowestKey_eq_none.mpr h] at hlow; cases hlow
    refine ⟨_, exec_ldVxK_of_some x hlow, (if_pos hkeys).symm, (setV_changes s x _).advance.mono fun p hp => ⟨?_, hp⟩⟩
    rw [hlow]
    exact Option.some_ne_none k

/-- An instruction whose fault condition does not hold answers a next state, with the `pc` and the frame of its row. -/
theorem leads_of_faultOf_none {i : Instr} {s : State} (h : faultOf i s = none) : ∃ t, Leads i s t := by
  cases i with
  | cls => exact ⟨_, exec_cls s, rfl, (setFb_changesCells _ s).advance⟩
  | ret => exact leads_ret (not_of_ite_eq_none h)
  | sysNnn nnn => exact ⟨_, exec_sysNnn nnn s, rfl, jump_changes s nnn⟩
  | jpNnn nnn => exact ⟨_, exec_jpNnn nnn s, rfl, jump_changes s nnn⟩
  | callNnn nnn => exact leads_callNnn nnn (not_of_ite_eq_none h)
  | seVxKk x kk => exact leads_skipIf (exec_seVxKk x kk s) beq_iff_eq rfl rfl
  | sneVxKk x kk => exact leads_skipIf (exec_sneVxKk x kk s) bne_iff_ne rfl rfl
  | seVxVy x y => exact leads_skipIf (exec_seVxVy x y s) beq_iff_eq rfl rfl
  | sneVxVy x y => exact leads_skipIf (exec_sneVxVy x y s) bne_iff_ne rfl rfl
  | ldVxKk x kk => exact ⟨_, exec_ldVxKk x kk s, rfl, (setV_changes s x _).advance⟩
  | addVxKk x kk => exact ⟨_, exec_addVxKk x kk s, rfl, (setV_changes s x _).advance⟩
  | ldVxVy x y => exact ⟨_, exec_ldVxVy x y s, rfl, (setV_changes s x _).advance⟩
  | orVxVy x y => exact ⟨_, exec_orVxVy x y s, rfl, (setV_changes s x _).advance⟩
  | andVxVy x y => exact ⟨_, exec_andVxVy x y s, rfl, (setV_changes s x _).advance⟩
  | xorVxVy x y => exact ⟨_, exec_xorVxVy x y s, rfl, (setV_changes s x _).advance⟩
  | addVxVy x y => exact ⟨_, exec_addVxVy x y s, rfl, (setFlag_setV_changes _ x _ s).advance⟩
  | subVxVy x y => exact ⟨_, exec_subVxVy x y s, rfl, (flagThenWrite_changes x s _ _).advance⟩
  | shrVx x y => exact ⟨_, exec_shrVx x y s, rfl, (flagThenWrite_changes x s _ _).advance⟩
  | subnVxVy x y => exact ⟨_, exec_subnVxVy x y s, rfl, (flagThenWrite_changes x s _ _).advance⟩
  | shlVx x y => exact ⟨_, exec_shlVx x y s, rfl, (flagThenWrite_changes x s _ _).advance⟩
  | ldINnn nnn => exact ⟨_, exec_ldINnn s nnn, rfl, (setI_changes s _).advance⟩
  | jpV0Nnn nnn => exact ⟨_, exec_jpV0Nnn nnn s, rfl, setPc_changes s _⟩
  | rndVxKk x kk => exact ⟨_, exec_rndVxKk x kk s, rfl, (setV_drawRnd_changes x s _).advance⟩
  | drwVxVyN x y n =>
    exact ⟨_, exec_drwVxVyN_inRange (not_of_ite_eq_none h), rfl, (spriteDrawn_changes (height_le n) _).advance⟩
  | skpVx x =>
    exact leads_skipIf (exec_skpVx_of_le (Nat.not_lt.mp (not_of_ite_eq_none h))) Iff.rfl rfl rfl
  | sknpVx x =>
    exact leads_skipIf (exec_sknpVx_of_le (Nat.not_lt.mp (not_of_ite_eq_none h))) (iff_of_eq (Bool.not_eq_true' _)) rfl
      rfl
  | ldVxDt x => exact ⟨_, exec_ldVxDt x s, rfl, (setV_changes s x _).advance⟩
  | ldVxK x => exact leads_ldVxK x s
  | ldDtVx x => exact ⟨_, exec_ldDtVx x s, rfl, (setDT_changes s _).advance⟩
  | ldStVx x => exact ⟨_, exec_ldStVx x s, rfl, (setST_changes s _).advance⟩
  | addIVx x => exact ⟨_, exec_addIVx x s, rfl, (setI_changes s _).advance⟩
  | ldFVx x => exact ⟨_, exec_ldFVx x s, rfl, (setI_changes s _).advance⟩
  | ldBVx x =>
    exact ⟨_, exec_ldBVx_inRange (Nat.not_lt.mp (not_of_ite_eq_none h)), rfl, (store_decimalDigits_changes s _).advance⟩
  | ldMemVx x =>
    exact ⟨_, exec_ldMemVx_inRange (Nat.not_lt.mp (not_of_ite_eq_none h)), rfl, (store_getVUpTo_changes s x).advance⟩
  | ldVxMem x =>
    exact ⟨_, exec_ldVxMem_inRange (Nat.not_lt.mp (not_of_ite_eq_none h)), rfl, (load_memReadRun_changes s x).advance⟩
  | unknown op => exact ⟨_, exec_unknown s op, rfl, advance_changes s⟩

/-! The two together: everything that an instruction can do. -/

section ExecCases

variable {i : Instr} {s t : State}

theorem leads_of_exec (h : faultOf i s = none) (hexec : exec i s = .next t) : Leads i s t := by
  obtain ⟨u, hu⟩ := leads_of_faultOf_none h
  exact Host.Outcome.next.inj (hexec.symm.trans hu.exec_eq) ▸ hu

/-- What an instruction can do: take its fault, or lead to the next state of its row. -/
theorem exec_cases (h : exec i s = .next t) :
    (∃ c, faultOf i s = some c ∧ t = { s with fault := c }) ∨ (faultOf i s = none ∧ Leads i s t) := by
  cases hf : faultOf i s with
  | some c => exact .inl ⟨c, rfl, (Host.Outcome.next.inj ((exec_of_faultOf_some hf).symm.trans h)).symm⟩
  | none => exact .inr ⟨rfl, leads_of_exec hf h⟩

/-- Every instruction answers a next state (R129). -/
theorem exists_next_of_exec (i : Instr) (s : State) : ∃ t, exec i s = .next t := by
  cases hf : faultOf i s with
  | some c => exact ⟨_, exec_of_faultOf_some hf⟩
  | none => exact (leads_of_faultOf_none hf).imp fun _ ht => ht.exec_eq

/-- A piece of the state outside an instruction's row, other than the latch, is left alone whether it faults or not. -/
theorem sameAt_of_exec (h : exec i s = .next t) {p : Part} (hp : p ≠ .fault) (hw : ¬ writes i s p) : sameAt s t p := by
  rcases exec_cases h with ⟨c, _, rfl⟩ | ⟨_, ht⟩
  · cases p with
    | fault => exact absurd rfl hp
    | rnd => exact ⟨rfl, rfl⟩
    | _ => rfl
  · exact ht.frame p hw

end ExecCases

/-- No instruction writes the latch by its row: a fault alone does (R36). -/
theorem not_writes_fault (i : Instr) (s : State) : ¬ writes i s .fault := by
  cases i <;> simp [writes]

/-! The rows of the table that name a timer, `I`, the stack or the picture (R36). -/

section Rows

variable {i : Instr} {s : State}

theorem not_writes_DT (hi : ∀ x, i ≠ .ldDtVx x) : ¬ writes i s .DT := by
  cases i with
  | ldDtVx x => exact absurd rfl (hi x)
  | _ => simp [writes]

theorem not_writes_ST (hi : ∀ x, i ≠ .ldStVx x) : ¬ writes i s .ST := by
  cases i with
  | ldStVx x => exact absurd rfl (hi x)
  | _ => simp [writes]

theorem not_writes_I (hi : ∀ nnn x, i ≠ .ldINnn nnn ∧ i ≠ .addIVx x ∧ i ≠ .ldFVx x) : ¬ writes i s .I := by
  cases i with
  | ldINnn nnn => exact absurd rfl (hi nnn 0).1
  | addIVx x => exact absurd rfl (hi 0 x).2.1
  | ldFVx x => exact absurd rfl (hi 0 x).2.2
  | _ => simp [writes]

theorem not_writes_sp (hi : ∀ nnn, i ≠ .ret ∧ i ≠ .callNnn nnn) : ¬ writes i s .sp := by
  cases i with
  | ret => exact absurd rfl (hi 0).1
  | callNnn nnn => exact absurd rfl (hi nnn).2
  | _ => simp [writes]

theorem not_writes_stack (hi : ∀ nnn, i ≠ .ret ∧ i ≠ .callNnn nnn) (k : Fin Config.stackDepth) :
    ¬ writes i s (.stack k) := by
  cases i with
  | ret => exact absurd rfl (hi 0).1
  | callNnn nnn => exact absurd rfl (hi nnn).2
  | _ => simp [writes]

theorem not_writes_cell (hi : ∀ x y n, i ≠ .cls ∧ i ≠ .drwVxVyN x y n) (k : Nat) : ¬ writes i s (.cell k) := by
  cases i with
  | cls => exact absurd rfl (hi 0 0 0).1
  | drwVxVyN x y n => exact absurd rfl (hi x y n).2
  | _ => simp [writes]

end Rows

/-- Settles O18: the frame is part of what an instruction leads to. -/
theorem instructionFrame : Obligations.InstructionFrame := fun _ _ _ h hexec => (leads_of_exec h hexec).frame

/-- The fetch fault is none of an instruction's faults. -/
theorem faultOf_ne {i : Instr} {s : State} : faultOf i s ≠ some .none ∧ faultOf i s ≠ some .fetchAddress := by
  cases i <;> simp [faultOf]

/-- The causes an instruction can raise, with their codes (R241). -/
theorem faultOf_code {i : Instr} {s : State} {c : Cause} (h : faultOf i s = some c) :
    (c = .dataAddress ∧ c.code = 2) ∨ (c = .stackOverflow ∧ c.code = 3) ∨
      (c = .stackUnderflow ∧ c.code = 4) ∨ (c = .keyIndex ∧ c.code = 5) := by
  cases c with
  | none => exact absurd h faultOf_ne.1
  | fetchAddress => exact absurd h faultOf_ne.2
  | dataAddress => exact .inl ⟨rfl, rfl⟩
  | stackOverflow => exact .inr (.inl ⟨rfl, rfl⟩)
  | stackUnderflow => exact .inr (.inr (.inl ⟨rfl, rfl⟩))
  | keyIndex => exact .inr (.inr (.inr ⟨rfl, rfl⟩))

/-- Settles O19: the two cases of an instruction, and the latch outside every row. -/
theorem faultsArePrecise : Obligations.FaultsArePrecise := by
  refine fun i s => ⟨fun c hc => ⟨_, exec_of_faultOf_some hc, rfl, faultOf_code hc⟩, fun h => ?_⟩
  obtain ⟨t, ht⟩ := leads_of_faultOf_none h
  exact ⟨t, ht.exec_eq, ht.frame .fault (not_writes_fault i s)⟩

end Sys2Proof.Machine
end

section
/-! The invariant (10_state.md R24, R35, 20_memory.md): an instruction writes memory only through a store in range,
leads to a `pc` of at most `0x10FE`, and pushes only the address after a word that was fetched. -/

namespace Sys2Proof.Machine

/-! Memory as data: the two stores alone write it. -/

section Outcomes

variable {s t u : State} {c : Cause} {P : State → Prop}

theorem holds_of_next (h : (.next u : Result) = .next t) (hu : P u) : P t := Host.Outcome.next.inj h ▸ hu

theorem holds_of_checked {b : Prop} [Decidable b] (h : (if b then raise c s else .next u) = .next t)
    (hs : P { s with fault := c }) (hu : P u) : P t := by
  split at h
  · exact holds_of_next h hs
  · exact holds_of_next h hu

end Outcomes

theorem exec_ret_cases {s t : State} (h : exec .ret s = .next t) :
    (s.sp.val = 0 ∧ t = { s with fault := .stackUnderflow }) ∨
    ∃ k : Fin Config.stackDepth, s.sp.val = k.val + 1 ∧ t = setPc s.stack[k] (popped k s) := by
  by_cases hsp : s.sp.val = 0
  · exact .inl ⟨hsp, (Host.Outcome.next.inj ((exec_ret_of_empty hsp).symm.trans h)).symm⟩
  · obtain ⟨k, hk⟩ := exists_entry_of_ne_zero hsp
    exact .inr ⟨k, hk, (Host.Outcome.next.inj ((exec_ret_of_sp_eq hk).symm.trans h)).symm⟩

theorem exec_callNnn_cases {nnn : Addr} {s t : State} (h : exec (.callNnn nnn) s = .next t) :
    (s.sp.val = 16 ∧ t = { s with fault := .stackOverflow }) ∨
    ∃ k : Fin Config.stackDepth, s.sp.val = k.val ∧ t = jump nnn (pushed (s.pc + 2) k s) := by
  by_cases hsp : s.sp.val = 16
  · exact .inl ⟨hsp, (Host.Outcome.next.inj ((exec_callNnn_of_full nnn hsp).symm.trans h)).symm⟩
  · obtain ⟨k, hk⟩ := exists_free_of_ne_full hsp
    exact .inr ⟨k, hk, (Host.Outcome.next.inj ((exec_callNnn_of_sp_eq nnn hk).symm.trans h)).symm⟩

theorem exec_ldVxK_cases {x : Nibble} {s t : State} (h : exec (.ldVxK x) s = .next t) :
    t = s ∨ ∃ k, t = advance (setV x (BitVec.ofNat 8 k) s) := by
  cases hlow : lowestKey s with
  | none => exact .inl (Host.Outcome.next.inj ((exec_ldVxK_of_none x hlow).symm.trans h)).symm
  | some k => exact .inr ⟨k, (Host.Outcome.next.inj ((exec_ldVxK_of_some x hlow).symm.trans h)).symm⟩

/-- No instruction but the two stores writes memory (R130). -/
theorem exec_mem {i : Instr} {s t : State} (hi : ∀ x, i ≠ .ldBVx x ∧ i ≠ .ldMemVx x) (h : exec i s = .next t) :
    t.mem = s.mem := by
  cases i with
  | ret => rcases exec_ret_cases h with ⟨_, rfl⟩ | ⟨k, _, rfl⟩ <;> rfl
  | callNnn nnn => rcases exec_callNnn_cases h with ⟨_, rfl⟩ | ⟨k, _, rfl⟩ <;> rfl
  | ldVxK x => rcases exec_ldVxK_cases h with rfl | ⟨_, rfl⟩ <;> rfl
  | drwVxVyN x y n => exact holds_of_checked (P := (·.mem = s.mem)) h rfl rfl
  | skpVx x => exact holds_of_checked (P := (·.mem = s.mem)) h rfl rfl
  | sknpVx x => exact holds_of_checked (P := (·.mem = s.mem)) h rfl rfl
  | ldBVx x => exact absurd rfl (hi x).1
  | ldMemVx x => exact absurd rfl (hi x).2
  | ldVxMem x => exact holds_of_checked (P := (·.mem = s.mem)) h rfl rfl
  | _ => exact holds_of_next (P := (·.mem = s.mem)) h rfl

/-! The three parts of the invariant across an instruction that does not fault. -/

section Parts

variable {i : Instr} {s t : State}

theorem mem_wf_of_exec (hmem : s.mem.wf) (hf : faultOf i s = none) (h : exec i s = .next t) : t.mem.wf := by
  by_cases hstore : ∀ x, i ≠ .ldBVx x ∧ i ≠ .ldMemVx x
  · rwa [exec_mem hstore h]
  · simp only [not_forall, not_and_or, not_not] at hstore
    obtain ⟨x, rfl | rfl⟩ := hstore
    · have hI : s.I.toNat + 2 ≤ 0xFFF := Nat.not_lt.mp (not_of_ite_eq_none hf)
      rw [mem_of_ldBVx hI h]
      exact memWriteRun_wf hmem (by rw [decimalDigits_length, Config.memSize]; omega)
    · have hI : s.I.toNat + x.toNat ≤ 0xFFF := Nat.not_lt.mp (not_of_ite_eq_none hf)
      rw [mem_of_ldMemVx hI h]
      exact memWriteRun_wf hmem (by rw [getVUpTo_length, Config.memSize]; omega)

/-- The address after a fetched word, and the one after that, do not wrap. -/
theorem pc_add_toNat {pc : Word} (hpc : pc.toNat ≤ 0xFFE) :
    (pc + 2).toNat = pc.toNat + 2 ∧ (pc + 4).toNat = pc.toNat + 4 := by
  constructor <;> rw [BitVec.toNat_add] <;> exact Nat.mod_eq_of_lt (by simp; omega)

/-- The table of net changes stays below the largest target of `Bnnn` (R24), return addresses aside. -/
theorem netPc_le (hpc : s.pc.toNat ≤ 0xFFE) (hret : i ≠ .ret) : (netPc i s).toNat ≤ 0x10FE := by
  obtain ⟨hpc2, hpc4⟩ := pc_add_toNat hpc
  have htwo : (s.pc + 2).toNat ≤ 0x10FE := by omega
  have hskip (P : Prop) [Decidable P] : (if P then s.pc + 4 else s.pc + 2).toNat ≤ 0x10FE := by split <;> omega
  have hjump (nnn : Addr) : (nnn.setWidth 16 : Word).toNat ≤ 0x10FE := by
    rw [BitVec.toNat_setWidth_of_le (by decide)]
    omega
  cases i with
  | ret => exact absurd rfl hret
  | sysNnn nnn => exact hjump nnn
  | jpNnn nnn => exact hjump nnn
  | callNnn nnn => exact hjump nnn
  | jpV0Nnn nnn =>
    rw [netPc, setWidth_add_setWidth_toNat]
    omega
  | seVxKk x kk => exact hskip _
  | sneVxKk x kk => exact hskip _
  | seVxVy x y => exact hskip _
  | sneVxVy x y => exact hskip _
  | skpVx x => exact hskip _
  | sknpVx x => exact hskip _
  | ldVxK x =>
    rw [netPc]
    split <;> omega
  | _ => exact htwo

/-- An instruction other than call and return leaves the stack and its count alone. -/
theorem stack_of_leads (h : Leads i s t) (hi : ∀ nnn, i ≠ .ret ∧ i ≠ .callNnn nnn) :
    t.sp = s.sp ∧ t.stack = s.stack :=
  ⟨h.frame .sp (not_writes_sp hi), Vector.ext fun k hk => h.frame (.stack ⟨k, hk⟩) (not_writes_stack hi _)⟩

theorem stackOk_pushed {v : Word} {k : Fin Config.stackDepth} (hs : stackOk s) (hk : s.sp.val = k.val)
    (hv : 2 ≤ v.toNat ∧ v.toNat ≤ 0x1000) : stackOk (pushed v k s) := by
  intro j hj
  by_cases hjk : j = k
  · subst hjk
    simpa [pushed] using hv
  · have hne : k.val ≠ j.val := fun h => hjk (Fin.ext h.symm)
    have hlt : j.val < s.sp.val := by
      have : j.val < k.val + 1 := hj
      omega
    simpa [pushed, Vector.getElem_set_ne k.isLt j.isLt hne] using hs j hlt

theorem stackOk_popped {k : Fin Config.stackDepth} (hs : stackOk s) (hk : s.sp.val = k.val + 1) :
    stackOk (popped k s) :=
  fun j hj => hs j (by have : j.val < k.val := hj; omega)

end Parts

/-- An instruction keeps the invariant when it runs where it can be fetched. -/
theorem inv_of_exec {i : Instr} {s t : State} (hs : Inv s) (hpc : s.pc.toNat ≤ 0xFFE) (h : exec i s = .next t) :
    Inv t := by
  obtain ⟨hmem, hpcInv, hstack⟩ := hs
  rcases exec_cases h with ⟨c, _, rfl⟩ | ⟨hf, hleads⟩
  · exact ⟨hmem, hpcInv, hstack⟩
  · have hmem' := mem_wf_of_exec hmem hf h
    by_cases hret : i = .ret
    · subst hret
      rcases exec_ret_cases h with ⟨hsp, _⟩ | ⟨k, hk, rfl⟩
      · exact absurd hsp (not_of_ite_eq_none hf)
      · have hentry := (hstack k (by omega)).2
        have hstack' : stackOk (popped k s) := stackOk_popped hstack hk
        exact ⟨hmem', hentry.trans (by decide), hstack'⟩
    · refine ⟨hmem', hleads.pc_eq ▸ netPc_le hpc hret, ?_⟩
      by_cases hcall : ∃ nnn, i = .callNnn nnn
      · obtain ⟨nnn, rfl⟩ := hcall
        rcases exec_callNnn_cases h with ⟨hsp, _⟩ | ⟨k, hk, rfl⟩
        · exact absurd hsp (not_of_ite_eq_none hf)
        · have hpc2 := (pc_add_toNat hpc).1
          exact stackOk_pushed hstack hk (by omega)
      · obtain ⟨hsp, hst⟩ := stack_of_leads hleads fun nnn => ⟨hret, fun h => hcall ⟨nnn, h⟩⟩
        unfold stackOk
        rwa [hsp, hst]

/-- What a step leads to (R128): nothing when halted, the fetch fault, or what the decoded instruction leads to after
the timers. -/
theorem step_next_cases {s t : State} (h : step s = .next t) :
    (s.fault ≠ .none ∧ t = s) ∨
    (s.fault = .none ∧ 0xFFE < s.pc.toNat ∧ t = { tickTimers s with fault := .fetchAddress }) ∨
    (∃ op, s.fault = .none ∧ fetchWord s = some op ∧ exec (decodeWord op) (tickTimers s) = .next t) := by
  rcases step_cases s with ⟨hfault, hs⟩ | ⟨hfault, hpc, hs⟩ | ⟨op, hfault, hop, hs⟩
  · exact .inl ⟨hfault, (Host.Outcome.next.inj (hs.symm.trans h)).symm⟩
  · exact .inr (.inl ⟨hfault, hpc, (Host.Outcome.next.inj (hs.symm.trans h)).symm⟩)
  · exact .inr (.inr ⟨op, hfault, hop, hs.symm.trans h⟩)

/-- Settles O3: the timers are no part of the invariant, and a fetched word lies where its successors do not wrap. -/
theorem stepKeepsInvariant : Obligations.StepKeepsInvariant := by
  intro s t hs h
  have htick : Inv (tickTimers s) := hs
  rcases step_next_cases h with ⟨_, rfl⟩ | ⟨_, _, rfl⟩ | ⟨op, _, hop, hexec⟩
  · exact hs
  · exact htick
  · exact inv_of_exec htick (fetchWord_eq_some.mp hop).1 hexec

/-- Settles O2: no entry is in use. -/
theorem resetMeetsInvariant : Obligations.ResetMeetsInvariant :=
  ⟨reset_mem_wf, by decide, fun i hi => absurd hi (Nat.not_lt_zero i.val)⟩

end Sys2Proof.Machine
end

section
/-! The step (40_step_cycle.md R119 to R130): what it does when halted, at a fetch fault and with an instruction, and
what it never does. -/

namespace Sys2Proof.Machine

/-! The timers' decrement is seen by no fault condition and by no target (R121). -/

theorem faultOf_tickTimers (i : Instr) (s : State) : faultOf i (tickTimers s) = faultOf i s := by
  cases i <;> rfl

theorem netPc_tickTimers (i : Instr) (s : State) : netPc i (tickTimers s) = netPc i s := by
  cases i <;> rfl

/-! The step by its three conditions. -/

section Steps

variable {s t : State}

theorem step_of_halted (hfault : s.fault ≠ .none) : step s = .next s := if_pos (halted_iff s |>.mpr hfault)

/-- What a step of a running core leads to: the fetch fault, or what the decoded instruction leads to. -/
theorem step_running_cases (hfault : s.fault = .none) (h : step s = .next t) :
    (fetchWord s = none ∧ t = { tickTimers s with fault := .fetchAddress }) ∨
    (∃ op, fetchWord s = some op ∧ exec (decodeWord op) (tickTimers s) = .next t) := by
  rcases step_next_cases h with ⟨hhalted, _⟩ | ⟨_, hpc, ht⟩ | ⟨op, _, hop, hexec⟩
  · exact absurd hfault hhalted
  · exact .inl ⟨fetchWord_eq_none.mpr hpc, ht⟩
  · exact .inr ⟨op, hop, hexec⟩

/-- In a step of a running core, a piece other than the latch changes after the timers only by the row of the fetched
instruction. -/
theorem sameAt_of_step (hfault : s.fault = .none) (h : step s = .next t) {p : Part} (hp : p ≠ .fault)
    (hw : ∀ op, fetchWord s = some op → ¬ writes (decodeWord op) (tickTimers s) p) : sameAt (tickTimers s) t p := by
  rcases step_running_cases hfault h with ⟨_, rfl⟩ | ⟨op, hop, hexec⟩
  · cases p with
    | fault => exact absurd rfl hp
    | rnd => exact ⟨rfl, rfl⟩
    | _ => rfl
  · exact sameAt_of_exec hexec hp (hw op hop)

end Steps

/-- Settles O13: the halted check comes first, in the step and in its diagnostic. -/
theorem haltedStep : Obligations.HaltedStep := fun _ hfault =>
  ⟨step_of_halted hfault, if_pos ((halted_iff _).mpr hfault)⟩

theorem not_halted {s : State} (hfault : s.fault = .none) : ¬ halted s = true := fun h => (halted_iff s).mp h hfault

theorem stepDiag_of_fetchWord_eq_none {s : State} (hfetch : fetchWord s = none) : stepDiag s = .none := by
  unfold stepDiag
  rw [fetchWord_tickTimers, hfetch]
  exact ite_self _

theorem stepDiag_of_fetchWord {s : State} {op : Word} (hfault : s.fault = .none) (hfetch : fetchWord s = some op) :
    stepDiag s = instrDiag (decodeWord op) := by
  unfold stepDiag
  rw [if_neg (not_halted hfault), fetchWord_tickTimers, hfetch]

/-- Settles O14: the fetch fault is taken after the timers, and nothing is decoded. -/
theorem fetchFault : Obligations.FetchFault := by
  intro s hfault hpc
  refine ⟨_, step_of_pc_gt hfault hpc, rfl, timerDown_toNat _, timerDown_toNat _, fun p hp => ?_,
    stepDiag_of_fetchWord_eq_none (fetchWord_eq_none.mpr hpc)⟩
  simp only [not_or] at hp
  obtain ⟨hlatch, hDT, hST⟩ := hp
  cases p with
  | fault => exact absurd rfl hlatch
  | DT => exact absurd rfl hDT
  | ST => exact absurd rfl hST
  | rnd => exact ⟨rfl, rfl⟩
  | _ => rfl

/-- Settles O12: the bytes at `pc` are the fetched word. -/
theorem stepRunsDecoded : Obligations.StepRunsDecoded := by
  intro s i rest hfault hpc hdec
  obtain ⟨hi, -⟩ := Prod.mk.inj (Except.ok.inj hdec)
  exact step_of_decodeWord hfault (fetchWord_eq hpc) hi

/-- Settles O15: the timers' decrement stands unless the instruction's row names the timer. -/
theorem timersTick : Obligations.TimersTick := by
  intro s t hfault h
  constructor
  · intro hi
    have hDT : t.DT = timerDown s.DT := sameAt_of_step hfault h (p := .DT) nofun fun op hop =>
      not_writes_DT fun x => hi op x hop
    rw [hDT, timerDown_toNat]
  · intro hi
    have hST : t.ST = timerDown s.ST := sameAt_of_step hfault h (p := .ST) nofun fun op hop =>
      not_writes_ST fun x => hi op x hop
    rw [hST, timerDown_toNat]

/-- A picture is its cells. -/
theorem framebuffer_ext {f g : Framebuffer} (h : ∀ i, cell f i = cell g i) : f = g := by
  refine Vector.ext fun y hy => BitVec.eq_of_getLsbD_eq fun x hx => ?_
  have hrow : (x + 64 * y) / 64 = y := by omega
  have hcol : (x + 64 * y) % 64 = x := by omega
  simpa [cell, hrow, hcol, hy] using h (x + 64 * y)

/-- Settles O20: a halted step changes nothing; else each piece is outside the row of the fetched instruction, memory as
data is written by the two stores alone, and the picture is its cells. -/
theorem stepNever : Obligations.StepNever := by
  intro s t h
  by_cases hfault : s.fault = .none
  · refine ⟨step_keys h, fun hlatch => absurd hfault hlatch, fun hi => ?mem, fun hi => ?fb, fun hi => ?stack,
      fun hi => ?I⟩
    case mem =>
      rcases step_running_cases hfault h with ⟨_, rfl⟩ | ⟨op, hop, hexec⟩
      · rfl
      · exact exec_mem (s := tickTimers s) (fun x => hi op x hop) hexec
    case fb =>
      exact framebuffer_ext fun k => sameAt_of_step hfault h (p := .cell k) nofun fun op hop =>
        not_writes_cell (fun x y n => hi op x y n hop) k
    case stack =>
      refine ⟨sameAt_of_step hfault h (p := .sp) nofun fun op hop => not_writes_sp fun nnn => hi op nnn hop,
        Vector.ext fun k hk => ?_⟩
      exact sameAt_of_step hfault h (p := .stack ⟨k, hk⟩) nofun fun op hop =>
        not_writes_stack (fun nnn => hi op nnn hop) _
    case I =>
      exact sameAt_of_step hfault h (p := .I) nofun fun op hop => not_writes_I fun nnn x => hi op nnn x hop
  · obtain rfl := Host.Outcome.next.inj ((step_of_halted hfault).symm.trans h)
    exact ⟨rfl, fun _ => rfl, fun _ => rfl, fun _ => rfl, fun _ => ⟨rfl, rfl⟩, fun _ => rfl⟩

/-- Settles O17: the table of net changes, whose bound is that of every instruction but the return. -/
theorem netProgramCounter : Obligations.NetProgramCounter := by
  refine ⟨fun s t op hfault hop h => ?run, fun s t hfault hop h => ?fetch, fun s nnn => ?sum⟩
  case run =>
    have hpc : s.pc.toNat ≤ 0xFFE := (fetchWord_eq_some.mp hop).1
    rw [step_of_fetchWord hfault hop] at h
    rcases exec_cases h with ⟨c, hc, rfl⟩ | ⟨hf, ht⟩
    · rw [faultOf_tickTimers] at hc
      rw [if_neg (by simp [hc])]
      exact ⟨rfl, fun _ => hpc.trans (by decide)⟩
    · rw [faultOf_tickTimers] at hf
      rw [if_pos hf, ht.pc_eq, netPc_tickTimers]
      exact ⟨rfl, netPc_le hpc⟩
  case fetch =>
    rcases step_running_cases hfault h with ⟨_, rfl⟩ | ⟨op, hop', _⟩
    · rfl
    · cases hop.symm.trans hop'
  case sum => exact setWidth_add_setWidth_toNat _ _

/-- Settles O21: of the causes a step can latch, one is the fetch and the others are the instruction's. -/
theorem safeStep : Obligations.SafeStep := by
  intro s t hsafe h
  rcases step_running_cases hsafe h with ⟨hop, rfl⟩ | ⟨op, hop, hexec⟩
  · have hpc := fetchWord_eq_none.mp hop
    exact ⟨nofun, fun ⟨hle, _⟩ => absurd hle (Nat.not_le.mpr hpc)⟩
  · have hpc := (fetchWord_eq_some.mp hop).1
    have hlatch : Safe t ↔ faultOf (decodeWord op) s = none := by
      rw [← faultOf_tickTimers]
      rcases exec_cases hexec with ⟨c, hc, rfl⟩ | ⟨hf, ht⟩
      · rw [hc]
        exact ⟨fun hnone => absurd (hc.trans (congrArg some hnone)) faultOf_ne.1, nofun⟩
      · exact ⟨fun _ => hf, fun _ => (ht.frame .fault (not_writes_fault _ _)).trans hsafe⟩
    rw [hlatch, hop]
    exact ⟨fun hf => ⟨hpc, fun _ hop' => Option.some.inj hop' ▸ hf⟩, fun ⟨_, hf⟩ => hf op rfl⟩

/-! The random input (10_state.md R46): `Cxkk` alone looks at it. -/

/-- The state with another random input. -/
def withRnd (r : List Byte) (d : Nat) (s : State) : State := { s with rndIn := r, draws := d }

section RandomInput

variable {i : Instr} {s t u : State} {c : Cause} (r : List Byte) (d : Nat)

theorem next_withRnd (h : (.next u : Result) = .next t) : (.next (withRnd r d u) : Result) = .next (withRnd r d t) :=
  congrArg (Host.Outcome.next ∘ withRnd r d) (Host.Outcome.next.inj h)

theorem checked_withRnd {b : Prop} [Decidable b] (h : (if b then raise c s else .next u) = .next t) :
    (if b then raise c (withRnd r d s) else .next (withRnd r d u)) = .next (withRnd r d t) := by
  split at h
  · next hb => exact (if_pos hb).trans (next_withRnd r d h)
  · next hb => exact (if_neg hb).trans (next_withRnd r d h)

/-- An instruction other than `Cxkk` does the same with another random input, and leaves that input alone. -/
theorem exec_withRnd (hi : ∀ x kk, i ≠ .rndVxKk x kk) (h : exec i s = .next t) :
    exec i (withRnd r d s) = .next (withRnd r d t) := by
  cases i with
  | ret =>
    rcases exec_ret_cases h with ⟨hsp, rfl⟩ | ⟨k, hk, rfl⟩
    · exact exec_ret_of_empty (s := withRnd r d s) hsp
    · exact exec_ret_of_sp_eq (s := withRnd r d s) hk
  | callNnn nnn =>
    rcases exec_callNnn_cases h with ⟨hsp, rfl⟩ | ⟨k, hk, rfl⟩
    · exact exec_callNnn_of_full (s := withRnd r d s) nnn hsp
    · exact exec_callNnn_of_sp_eq (s := withRnd r d s) nnn hk
  | ldVxK x =>
    cases hlow : lowestKey s with
    | none =>
      rw [exec_ldVxK_of_none x hlow] at h
      exact (exec_ldVxK_of_none (s := withRnd r d s) x hlow).trans (next_withRnd r d h)
    | some k =>
      rw [exec_ldVxK_of_some x hlow] at h
      exact (exec_ldVxK_of_some (s := withRnd r d s) x hlow).trans (next_withRnd r d h)
  | rndVxKk x kk => exact absurd rfl (hi x kk)
  | drwVxVyN x y n => exact checked_withRnd r d h
  | skpVx x => exact checked_withRnd r d h
  | sknpVx x => exact checked_withRnd r d h
  | ldBVx x => exact checked_withRnd r d h
  | ldMemVx x => exact checked_withRnd r d h
  | ldVxMem x => exact checked_withRnd r d h
  | _ => exact next_withRnd r d h

theorem step_withRnd (hi : ∀ op x kk, fetchWord s = some op → decodeWord op ≠ .rndVxKk x kk) (h : step s = .next t) :
    step (withRnd r d s) = .next (withRnd r d t) := by
  rcases step_next_cases h with ⟨hfault, rfl⟩ | ⟨hfault, hpc, rfl⟩ | ⟨op, hfault, hop, hexec⟩
  · exact step_of_halted hfault
  · exact step_of_pc_gt (s := withRnd r d s) hfault hpc
  · exact (step_of_fetchWord (s := withRnd r d s) hfault hop).trans
      (exec_withRnd r d (fun x kk => hi op x kk hop) hexec)

end RandomInput

theorem exists_next_of_step (s : State) : ∃ t, step s = .next t := by
  rcases step_cases s with ⟨_, hs⟩ | ⟨_, _, hs⟩ | ⟨op, _, _, hs⟩
  · exact ⟨s, hs⟩
  · exact ⟨_, hs⟩
  · exact (exists_next_of_exec _ _).imp fun _ ht => hs.trans ht

/-- Settles O16: the step is total, the random input is seen by `Cxkk` alone, and the key wait without a key is the
instruction that changes nothing. -/
theorem stepDeterministic : Obligations.StepDeterministic := by
  refine ⟨fun s => ?total, fun s t r d hi h => step_withRnd r d hi h, fun s x hkeys => ?keyWait⟩
  case total =>
    obtain ⟨t, ht⟩ := exists_next_of_step s
    exact ⟨t, ht, fun u hu => Host.Outcome.next.inj (hu.symm.trans ht)⟩
  case keyWait =>
    have hlow : lowestKey s = none := lowestKey_eq_none_of_keySet hkeys
    refine ⟨exec_ldVxK_of_none x hlow, fun op hfault hop hdec => ⟨tickTimers s, ?_, rfl, tickTimers_changes s⟩⟩
    exact (step_of_decodeWord hfault hop hdec).trans (exec_ldVxK_of_none (s := tickTimers s) x hlow)

/-! The diagnostic (R127) and the idle state (70_reset_and_hazards.md R294). -/

/-- The diagnostic of a word: the word itself when R98 lists it, for no other word decodes to `UNKNOWN`. -/
theorem instrDiag_decodeWord (op : Word) :
    instrDiag (decodeWord op) = if unknownWord op = true then .invalidOpcode op else .none := by
  split
  · next hu => rw [decodeWord_of_unknownWord hu]; rfl
  · next hu =>
    obtain ⟨hwf, henc⟩ := decodeWord_standsFor op
    cases hdec : decodeWord op with
    | unknown op' =>
      rw [hdec] at hwf henc
      exact absurd (henc ▸ hwf : unknownWord op = true) hu
    | _ => rfl

/-- Settles O47: the advance alone, and the diagnostic of the fetched word. -/
theorem unknownIsNoOp : Obligations.UnknownIsNoOp :=
  ⟨fun s op => ⟨_, exec_unknown s op, rfl, advance_changes s⟩,
    fun _ _ hfault hop => (stepDiag_of_fetchWord hfault hop).trans (instrDiag_decodeWord _)⟩

/-- Settles O53: the idle state's word is a jump to its own address, and the timers are no part of being idle. -/
theorem idleStaysIdle : Obligations.IdleStaysIdle := by
  intro s hidle
  have hparts := hidle
  simp only [idle, Bool.and_eq_true, decide_eq_true_eq, beq_iff_eq, Bool.not_eq_true'] at hparts
  obtain ⟨⟨hhalted, hpc⟩, hop⟩ := hparts
  have hfault : s.fault = .none := by
    by_contra hlatch
    exact Bool.false_ne_true (hhalted.symm.trans ((halted_iff s).mpr hlatch))
  have htarget : s.pc.toNat = (s.pc.setWidth 12).toNat := by
    rw [BitVec.toNat_setWidth]
    exact (Nat.mod_eq_of_lt hpc).symm
  exact ⟨tickTimers s, step_selfJump hfault hop htarget, hidle, timerDown_toNat _, timerDown_toNat _,
    tickTimers_changes s⟩

end Sys2Proof.Machine
end

section
/-! The subtractions and the shifts (44_alu.md R181 to R184): the flag first, then `V[x]` from the registers read again
(decision D16), so that the flag is what is read wherever an operand is the flag register. -/

namespace Sys2Proof.Machine

/-! A register after the flag and then `V[x]` are written. -/

section FlagThenWrite

variable {x y : Nibble} (b : Bool) (f : State → Byte) (s : State)

theorem getV_flagThenWrite_same : getV (flagThenWrite b x f s) x = f (setFlag b s) := getV_setV_same ..

theorem getV_flagThenWrite_flagReg (hx : x ≠ flagReg) :
    getV (flagThenWrite b x f s) flagReg = if b then 1 else 0 :=
  (getV_setV_other _ hx _).trans (getV_setFlag_flagReg b s)

end FlagThenWrite

/-! The flags and the differences as numbers (R185). -/

/-- The byte a flag register takes from a comparison, as a number. -/
theorem ite_strictlyGreater_toNat (a b : Byte) :
    (if strictlyGreater a b then 1 else 0 : Byte).toNat = if b.toNat < a.toNat then 1 else 0 := by
  simp only [strictlyGreater, decide_eq_true_eq]
  split <;> rfl

theorem sub_toNat (a b : Byte) : (a - b).toNat = (256 + a.toNat - b.toNat) % 256 := by
  have := b.isLt
  rw [BitVec.toNat_sub]
  congr 1
  omega

theorem ite_lowBit_toNat (a : Byte) : (if lowBit a then 1 else 0 : Byte).toNat = a.toNat % 2 := by
  rw [lowBit, BitVec.getLsbD, Nat.testBit_zero]
  rcases Nat.mod_two_eq_zero_or_one a.toNat with h | h <;> simp [h]

theorem ite_highBit_toNat (a : Byte) : (if highBit a then 1 else 0 : Byte).toNat = a.toNat / 128 := by
  have hlt := a.isLt
  rw [highBit, BitVec.getLsbD, Nat.testBit_eq_decide_div_mod_eq]
  rcases (by omega : a.toNat / 128 = 0 ∨ a.toNat / 128 = 1) with h | h <;> simp [h]

theorem shiftRight_one_toNat (a : Byte) : (a >>> 1).toNat = a.toNat / 2 := by
  rw [BitVec.toNat_ushiftRight, Nat.shiftRight_eq_div_pow, pow_one]

theorem shiftLeft_one_toNat (a : Byte) : (a <<< 1).toNat = 2 * a.toNat % 256 := by
  rw [BitVec.toNat_shiftLeft, Nat.shiftLeft_eq, pow_one, Nat.mul_comm]

/-! The subtraction (R181, R183): destination `V[x]`, minuend `V[p]`, subtrahend `V[q]`. -/

/-- The flag of a subtraction as a number. -/
def greaterFlag (p q : Nibble) (s : State) : Nat := if (getV s q).toNat < (getV s p).toNat then 1 else 0

section Subtract

variable {x p q : Nibble} (s : State)

theorem getV_subtracted_flagReg_eq (hx : x ≠ flagReg) :
    getV (subtracted x p q s) flagReg = if (getV s q).toNat < (getV s p).toNat then 1 else 0 :=
  (getV_flagThenWrite_flagReg _ _ s hx).trans (by simp only [strictlyGreater, decide_eq_true_eq])

theorem getV_subtracted_flagReg (hx : x ≠ flagReg) : (getV (subtracted x p q s) flagReg).toNat = greaterFlag p q s := by
  rw [getV_subtracted_flagReg_eq s hx, greaterFlag]
  split <;> rfl

/-- The difference is that of the operands read again. -/
theorem getV_subtracted (x p q : Nibble) :
    (getV (subtracted x p q s) x).toNat =
      (256 + (getV (setFlag (strictlyGreater (getV s p) (getV s q)) s) p).toNat -
        (getV (setFlag (strictlyGreater (getV s p) (getV s q)) s) q).toNat) % 256 := by
  rw [subtracted, getV_flagThenWrite_same, sub_toNat]

theorem getV_setFlag_strictlyGreater :
    (getV (setFlag (strictlyGreater (getV s p) (getV s q)) s) flagReg).toNat = greaterFlag p q s := by
  rw [getV_setFlag_flagReg, ite_strictlyGreater_toNat, greaterFlag]

theorem getV_subtracted_of_ne (hp : p ≠ flagReg) (hq : q ≠ flagReg) :
    (getV (subtracted x p q s) x).toNat = (256 + (getV s p).toNat - (getV s q).toNat) % 256 := by
  rw [getV_subtracted, getV_setFlag_other hp, getV_setFlag_other hq]

/-- The minuend is the flag register: the new flag is what is subtracted from. -/
theorem getV_subtracted_of_minuend_flagReg (hp : p = flagReg) (hq : q ≠ flagReg) :
    (getV (subtracted x p q s) x).toNat = (256 + greaterFlag p q s - (getV s q).toNat) % 256 := by
  subst hp
  rw [getV_subtracted, getV_setFlag_strictlyGreater, getV_setFlag_other hq]

/-- The subtrahend is the flag register: the new flag is what is subtracted. -/
theorem getV_subtracted_of_subtrahend_flagReg (hp : p ≠ flagReg) (hq : q = flagReg) :
    (getV (subtracted x p q s) x).toNat = (256 + (getV s p).toNat - greaterFlag p q s) % 256 := by
  subst hq
  rw [getV_subtracted, getV_setFlag_other hp, getV_setFlag_strictlyGreater]

/-- A register minus itself: no flag, no difference, whichever register it is. -/
theorem getV_subtracted_self (x p : Nibble) :
    getV (subtracted x p p s) flagReg = 0 ∧ getV (subtracted x p p s) x = 0 := by
  have hx : getV (subtracted x p p s) x = 0 := (getV_flagThenWrite_same ..).trans (BitVec.sub_self _)
  by_cases h : x = flagReg
  · exact ⟨h ▸ hx, hx⟩
  · exact ⟨(getV_subtracted_flagReg_eq s h).trans (if_neg (Nat.lt_irrefl _)), hx⟩

end Subtract

/-- Settles O32: the two words as one subtraction, by which of its operands is the flag register. -/
theorem subtract : Obligations.Subtract := by
  intro s x y
  constructor
  · refine ⟨_, exec_subVxVy x y s, rfl, ?_, (flagThenWrite_changes x s _ _).advance⟩
    rintro _ _ _ rfl rfl rfl
    refine ⟨fun hx hy => ⟨getV_subtracted_flagReg s hx, getV_subtracted_of_ne s hx hy⟩, ?self,
      fun hx hy => ?destination, fun hy hx =>
      ⟨getV_subtracted_flagReg s hx, getV_subtracted_of_subtrahend_flagReg s hx hy⟩⟩
    case self => rintro rfl; exact getV_subtracted_self s x x
    case destination => subst hx; exact getV_subtracted_of_minuend_flagReg s rfl hy
  · refine ⟨_, exec_subnVxVy x y s, rfl, ?_, (flagThenWrite_changes x s _ _).advance⟩
    rintro _ _ _ rfl rfl rfl
    refine ⟨fun hx hy => ⟨getV_subtracted_flagReg s hx, getV_subtracted_of_ne s hy hx⟩, ?self',
      fun hx hy => ?destination', fun hy hx =>
      ⟨getV_subtracted_flagReg s hx, getV_subtracted_of_minuend_flagReg s hy hx⟩⟩
    case self' => rintro rfl; exact getV_subtracted_self s x x
    case destination' => subst hx; exact getV_subtracted_of_subtrahend_flagReg s hy rfl

/-! The shifts, with and without the flag register as operand. -/

section Shifts

variable {x : Nibble} (s : State)

theorem getV_shiftedRight_flagReg (hx : x ≠ flagReg) :
    (getV (shiftedRight x s) flagReg).toNat = (getV s x).toNat % 2 := by
  rw [shiftedRight, getV_flagThenWrite_flagReg _ _ s hx, ite_lowBit_toNat]

theorem getV_shiftedRight (hx : x ≠ flagReg) : (getV (shiftedRight x s) x).toNat = (getV s x).toNat / 2 := by
  rw [shiftedRight, getV_flagThenWrite_same, getV_setFlag_other hx, shiftRight_one_toNat]

theorem getV_shiftedLeft_flagReg (hx : x ≠ flagReg) :
    (getV (shiftedLeft x s) flagReg).toNat = (getV s x).toNat / 128 := by
  rw [shiftedLeft, getV_flagThenWrite_flagReg _ _ s hx, ite_highBit_toNat]

theorem getV_shiftedLeft (hx : x ≠ flagReg) : (getV (shiftedLeft x s) x).toNat = 2 * (getV s x).toNat % 256 := by
  rw [shiftedLeft, getV_flagThenWrite_same, getV_setFlag_other hx, shiftLeft_one_toNat]

/-- A flag has one bit, so nothing of it is left by the shift to the right. -/
theorem shiftedRight_flagReg : getV (shiftedRight flagReg s) flagReg = 0 := by
  rw [shiftedRight, getV_flagThenWrite_same, getV_setFlag_flagReg]
  split <;> rfl

theorem shiftedLeft_flagReg :
    (getV (shiftedLeft flagReg s) flagReg).toNat = 2 * ((getV s flagReg).toNat / 128) := by
  have hlt := (getV s flagReg).isLt
  rw [shiftedLeft, getV_flagThenWrite_same, getV_setFlag_flagReg, shiftLeft_one_toNat, ite_highBit_toNat]
  omega

end Shifts

/-- Settles O33: the bit shifted out and the shifted value; where they share the flag register, the shifted flag. -/
theorem shifts : Obligations.Shifts := by
  intro s x y
  constructor
  · refine ⟨_, exec_shrVx x y s, rfl, fun hx => ⟨getV_shiftedRight_flagReg s hx, getV_shiftedRight s hx⟩,
      ?flag, (flagThenWrite_changes x s _ _).advance⟩
    case flag => rintro rfl; exact shiftedRight_flagReg s
  · refine ⟨_, exec_shlVx x y s, rfl, fun hx => ⟨getV_shiftedLeft_flagReg s hx, getV_shiftedLeft s hx⟩,
      ?flag', (flagThenWrite_changes x s _ _).advance⟩
    case flag' => rintro rfl; exact shiftedLeft_flagReg s

end Sys2Proof.Machine
end

section
/-! The sprite draw (45_display.md R195 to R199): the covered cells flip and the flag tells whether one was lit, so that
a second draw of the same sprite undoes the first. -/

namespace Sys2Proof.Machine

/-- The range check of a draw as the statements write it. -/
theorem drawInRange {s : State} {n : Nibble} (h : n = 0 ∨ s.I.toNat + n.toNat - 1 ≤ 0xFFF) :
    ¬ (0 < n.toNat ∧ 0xFFF < s.I.toNat + n.toNat - 1) := by
  rintro ⟨hpos, hlt⟩
  rcases h with rfl | h
  · exact absurd hpos (Nat.lt_irrefl 0)
  · omega

/-- A cell under the sprite of `Dxyn` is lit: the draw collides. -/
def DrawHits (s : State) (x y n : Nibble) : Prop :=
  ∃ i, spriteCovers s (getV s x).toNat (getV s y).toNat n.toNat i ∧ cell s.fb i = true

section Draw

variable {s t : State} {x y n : Nibble} (hI : ¬ (0 < n.toNat ∧ 0xFFF < s.I.toNat + n.toNat - 1))
  (h : exec (.drwVxVyN x y n) s = .next t)
include hI h

theorem eq_of_draw : t = advance (setFlag (spriteDrawn s (getV s x).toNat (getV s y).toNat n.toNat).2
    (setFb (spriteDrawn s (getV s x).toNat (getV s y).toNat n.toNat).1 s)) :=
  Host.Outcome.next.inj (h.symm.trans (exec_drwVxVyN_inRange hI))

theorem cell_of_draw_of_covers {i : Nat} (hi : spriteCovers s (getV s x).toNat (getV s y).toNat n.toNat i) :
    cell t.fb i = !cell s.fb i := by
  rw [eq_of_draw hI h]
  exact cell_spriteDrawn_of_covers (height_le n) hi

theorem cell_of_draw_of_not_covers {i : Nat} (hi : ¬ spriteCovers s (getV s x).toNat (getV s y).toNat n.toNat i) :
    cell t.fb i = cell s.fb i := by
  rw [eq_of_draw hI h]
  exact cell_spriteDrawn_of_not_covers (height_le n) hi

theorem flag_of_draw : getV t flagReg =
    if (spriteDrawn s (getV s x).toNat (getV s y).toNat n.toNat).2 = true then 1 else 0 := by
  rw [eq_of_draw hI h]
  exact getV_setFlag_flagReg _ _

theorem flag_of_draw_of_hits (hhit : DrawHits s x y n) : getV t flagReg = 1 :=
  (flag_of_draw hI h).trans (if_pos ((spriteDrawn_spec (height_le n)).2.mpr hhit))

theorem flag_of_draw_of_not_hits (hmiss : ¬ DrawHits s x y n) : getV t flagReg = 0 :=
  (flag_of_draw hI h).trans (if_neg (mt (spriteDrawn_spec (height_le n)).2.mp hmiss))

/-- A cell that the draw changed is one it covers. -/
theorem covers_of_cell_ne {i : Nat} (hne : cell t.fb i ≠ cell s.fb i) :
    spriteCovers s (getV s x).toNat (getV s y).toNat n.toNat i :=
  by_contra fun hi => hne (cell_of_draw_of_not_covers hI h hi)

/-- The collision in terms of the pictures before and after: a cell went from lit to unlit. -/
theorem drawHits_iff : DrawHits s x y n ↔ ∃ i, cell s.fb i = true ∧ cell t.fb i = false := by
  constructor
  · rintro ⟨i, hi, hlit⟩
    exact ⟨i, hlit, by rw [cell_of_draw_of_covers hI h hi, hlit]; rfl⟩
  · rintro ⟨i, hlit, hunlit⟩
    exact ⟨i, covers_of_cell_ne hI h (by simp [hlit, hunlit]), hlit⟩

end Draw

/-- Settles O35: the two sides of the range check. -/
theorem drawSprite : Obligations.DrawSprite := by
  intro s x y n
  refine ⟨fun hrange => ?inRange, fun hn hI => exec_drwVxVyN_outOfRange ⟨?pos, hI⟩⟩
  case inRange =>
    have hI := drawInRange hrange
    have h := exec_drwVxVyN_inRange (x := x) (y := y) hI
    exact ⟨_, h, rfl, fun i => ⟨cell_of_draw_of_covers hI h, cell_of_draw_of_not_covers hI h⟩,
      flag_of_draw_of_hits hI h, flag_of_draw_of_not_hits hI h, (spriteDrawn_changes (height_le n) _).advance⟩
  case pos =>
    exact Nat.pos_of_ne_zero fun h0 => hn (BitVec.eq_of_toNat_eq h0)

/-- The sprite depends on memory and `I` alone. -/
theorem spriteCovers_congr {s u : State} (hmem : u.mem = s.mem) (hI : u.I = s.I) (vx vy n i : Nat) :
    spriteCovers u vx vy n i ↔ spriteCovers s vx vy n i := by
  rw [spriteCovers, spriteCovers, hmem, hI]

/-- Settles O36: what the first draw flipped the second flips back, and it collides where the first lit. -/
theorem drawTwiceRestores : Obligations.DrawTwiceRestores := by
  intro s t u x y n hrange h hfb hmem hI hx hy
  have hIs := drawInRange hrange
  have hIu : ¬ (0 < n.toNat ∧ 0xFFF < u.I.toNat + n.toNat - 1) := hI ▸ hIs
  have h' := exec_drwVxVyN_inRange (x := x) (y := y) hIu
  have hcovers (i : Nat) : spriteCovers u (getV u x).toNat (getV u y).toNat n.toNat i ↔
      spriteCovers s (getV s x).toNat (getV s y).toNat n.toNat i := by
    rw [hx, hy]
    exact spriteCovers_congr hmem hI ..
  have hhits : DrawHits u x y n ↔ ∃ i, cell s.fb i = false ∧ cell t.fb i = true := by
    unfold DrawHits
    simp only [hcovers, hfb]
    constructor
    · rintro ⟨i, hi, hlit⟩
      exact ⟨i, by rw [cell_of_draw_of_covers hIs h hi, Bool.not_eq_true'] at hlit; exact hlit, hlit⟩
    · rintro ⟨i, hunlit, hlit⟩
      exact ⟨i, covers_of_cell_ne hIs h (by simp [hlit, hunlit]), hlit⟩
  refine ⟨_, h', fun i => ?cells, fun hlit => flag_of_draw_of_hits hIu h' (hhits.mpr hlit),
    fun hnone => flag_of_draw_of_not_hits hIu h' (mt hhits.mp hnone)⟩
  case cells =>
    by_cases hi : spriteCovers s (getV s x).toNat (getV s y).toNat n.toNat i
    · rw [cell_of_draw_of_covers hIu h' ((hcovers i).mpr hi), hfb, cell_of_draw_of_covers hIs h hi, Bool.not_not]
    · rw [cell_of_draw_of_not_covers hIu h' (mt (hcovers i).mp hi), hfb, cell_of_draw_of_not_covers hIs h hi]

/-! The flag register across all instructions (10_state.md section 2). -/

/-- The row of an instruction that neither writes the flag as a side effect nor has `V[F]` as its destination does not
name the flag register. -/
theorem not_writes_flagReg {i : Instr} {s : State}
    (halu : ∀ x y, i ≠ .addVxVy x y ∧ i ≠ .subVxVy x y ∧ i ≠ .shrVx x y ∧ i ≠ .subnVxVy x y ∧ i ≠ .shlVx x y)
    (hdraw : ∀ x y n, i ≠ .drwVxVyN x y n)
    (hkk : ∀ kk, i ≠ .ldVxKk 0xF kk ∧ i ≠ .addVxKk 0xF kk ∧ i ≠ .rndVxKk 0xF kk)
    (hxy : ∀ y, i ≠ .ldVxVy 0xF y ∧ i ≠ .orVxVy 0xF y ∧ i ≠ .andVxVy 0xF y ∧ i ≠ .xorVxVy 0xF y)
    (hDT : i ≠ .ldVxDt 0xF) (hK : i ≠ .ldVxK 0xF) (hmem : i ≠ .ldVxMem 0xF) : ¬ writes i s (.V 0xF) := by
  have hne {x : Nibble} (hx : 0xF ≠ x) : ¬ (Part.V 0xF = .pc ∨ Part.V 0xF = .V x) := by simpa using hx
  cases i with
  | addVxVy x y => exact absurd rfl (halu x y).1
  | subVxVy x y => exact absurd rfl (halu x y).2.1
  | shrVx x y => exact absurd rfl (halu x y).2.2.1
  | subnVxVy x y => exact absurd rfl (halu x y).2.2.2.1
  | shlVx x y => exact absurd rfl (halu x y).2.2.2.2
  | drwVxVyN x y n => exact absurd rfl (hdraw x y n)
  | ldVxKk x kk => exact hne fun h => (hkk kk).1 (h ▸ rfl)
  | addVxKk x kk => exact hne fun h => (hkk kk).2.1 (h ▸ rfl)
  | rndVxKk x kk =>
    rintro (h | h | h)
    · cases h
    · cases h
      exact (hkk kk).2.2 rfl
    · cases h
  | ldVxVy x y => exact hne fun h => (hxy y).1 (h ▸ rfl)
  | orVxVy x y => exact hne fun h => (hxy y).2.1 (h ▸ rfl)
  | andVxVy x y => exact hne fun h => (hxy y).2.2.1 (h ▸ rfl)
  | xorVxVy x y => exact hne fun h => (hxy y).2.2.2 (h ▸ rfl)
  | ldVxDt x => exact hne fun h => hDT (h ▸ rfl)
  | ldVxK x => exact fun ⟨_, hw⟩ => hne (fun h => hK (h ▸ rfl)) hw
  | ldVxMem x =>
    rintro (h | ⟨r, hr, h⟩)
    · cases h
    · cases h
      have hx : x = 0xF := BitVec.eq_of_toNat_eq (Nat.le_antisymm (Nat.le_of_lt_succ x.isLt) hr)
      exact hmem (hx ▸ rfl)
  | _ => simp [writes]

/-- Settles O22: the five flags of family `8`, the collision, and the rows that do not name the flag register. -/
theorem flagRegister : Obligations.FlagRegister := by
  refine ⟨fun s x y hx => ⟨⟨_, exec_addVxVy x y s, ?carry⟩, ⟨_, exec_subVxVy x y s, getV_subtracted_flagReg_eq s hx⟩,
    ⟨_, exec_shrVx x y s, getV_shiftedRight_flagReg s hx⟩, ⟨_, exec_subnVxVy x y s, getV_subtracted_flagReg_eq s hx⟩,
    ⟨_, exec_shlVx x y s, getV_shiftedLeft_flagReg s hx⟩⟩, fun s t x y n hf h => ?collision,
    fun i s t h halu hdraw hkk hxy hDT hK hmem => ?others⟩
  case carry => exact (getV_setFlag_flagReg _ _).trans (ite_carryOut _ _)
  case collision =>
    have hI := not_of_ite_eq_none hf
    rw [← drawHits_iff hI h]
    exact ⟨flag_of_draw_of_hits hI h, flag_of_draw_of_not_hits hI h⟩
  case others =>
    exact sameAt_of_exec h (p := .V 0xF) nofun (not_writes_flagReg halu hdraw hkk hxy hDT hK hmem)

end Sys2Proof.Machine
end

section
/-! Call and return (41_flow.md R141, R144, R146): one entry pushed or popped, with `pc` beside it. -/

namespace Sys2Proof.Machine

/-- Settles O24: the two sides of the full stack. -/
theorem call : Obligations.Call := by
  intro s nnn
  refine ⟨fun k hk => ⟨_, exec_callNnn_of_sp_eq nnn hk, ?entry, ?count, jump_pc_toNat .., ?frame⟩,
    exec_callNnn_of_full nnn⟩
  case entry => exact Vector.getElem_set_self k.isLt
  case count => exact (congrArg (· + 1) hk).symm
  case frame => exact ((pushed_changes _ k s).trans (jump_changes _ nnn)).mono fun _ => Or.symm

/-- Settles O25: the two sides of the empty stack. (`return` alone is a keyword.) -/
theorem ret_return : Obligations.Return := fun s =>
  ⟨fun k hk =>
      ⟨_, exec_ret_of_sp_eq hk, rfl, rfl, ((popped_changes k s).trans (setPc_changes _ _)).mono fun _ => Or.symm⟩,
    exec_ret_of_empty⟩

/-- Settles O26: the entry the call pushed is the one the return names. -/
theorem callThenReturn : Obligations.CallThenReturn := by
  intro s t u nnn hsp h husp hustack
  obtain ⟨k, hk⟩ := exists_free_of_ne_full hsp.ne
  obtain rfl := Host.Outcome.next.inj ((exec_callNnn_of_sp_eq nnn hk).symm.trans h)
  have hcount : u.sp.val = k.val + 1 := congrArg Fin.val husp
  have hentry : u.stack[k] = s.pc + 2 := (hustack k (Nat.lt_succ_self k.val)).trans (Vector.getElem_set_self k.isLt)
  exact ⟨_, exec_ret_of_sp_eq hcount, hentry, Fin.ext hk.symm⟩

end Sys2Proof.Machine
end

section
/-! The address register, the stores and the loads (47_index_memory.md R226 to R231). -/

namespace Sys2Proof.Machine

/-- Settles O40: a 16-bit sum is the sum modulo 65536. -/
theorem addToAddressRegister : Obligations.AddToAddressRegister := by
  refine fun s x => ⟨_, exec_addIVx x s, ?sum, rfl, (setI_changes s _).advance⟩
  case sum =>
    show (s.I + (getV s x).setWidth 16).toNat = _
    rw [BitVec.toNat_add, BitVec.toNat_setWidth_of_le (by decide)]

/-- Settles O42: the run of the three digits at `I`. -/
theorem storeDecimal : Obligations.StoreDecimal := by
  refine fun s x => ⟨decodeWord_formatXK_ldBVx x, fun hI => ?inRange, exec_ldBVx_outOfRange⟩
  case inRange =>
    obtain ⟨hhundreds, htens, hones⟩ := memRead_writeRun_decimalDigits s.mem s.I.toNat (getV s x)
    exact ⟨_, exec_ldBVx_inRange hI, hhundreds, htens, hones, rfl, (store_decimalDigits_changes s _).advance⟩

/-- Settles O43: the run of the registers at `I`. -/
theorem storeRegisters : Obligations.StoreRegisters := fun s x =>
  ⟨decodeWord_formatXK_ldMemVx x, fun hI =>
    ⟨_, exec_ldMemVx_inRange hI, fun _ hr => memRead_writeRun_getVUpTo s _ _ hr, rfl,
      (store_getVUpTo_changes s x).advance⟩, exec_ldMemVx_outOfRange⟩

/-- A register of a load takes the byte at its address. -/
theorem getV_load {s : State} {x r : Nibble} (hr : r.toNat ≤ x.toNat) :
    getV (setVUpTo (memReadRun s.mem s.I.toNat (x.toNat + 1)) s) r = memRead s.mem (s.I.toNat + r.toNat) := by
  have hlt : r.toNat < (memReadRun s.mem s.I.toNat (x.toNat + 1)).length := by rw [memReadRun_length]; omega
  rw [getV_setVUpTo, dif_pos hlt, memReadRun_getElem]

/-- Settles O44: the run of the registers from `I`. -/
theorem loadRegisters : Obligations.LoadRegisters := fun s x =>
  ⟨decodeWord_formatXK_ldVxMem x, fun hI =>
    ⟨_, exec_ldVxMem_inRange hI, fun _ hr => getV_load hr, rfl, (load_memReadRun_changes s x).advance⟩,
    exec_ldVxMem_outOfRange⟩

/-- Settles O45: the load reads the run that the store wrote. -/
theorem storeThenLoad : Obligations.StoreThenLoad := by
  intro s t u x hmem hIu
  constructor
  · intro hI h
    refine ⟨_, exec_ldVxMem_inRange (hIu ▸ hI), fun r hr => ?_⟩
    rw [getV_advance, getV_load hr, hmem, hIu, mem_of_ldMemVx hI h, memRead_writeRun_getVUpTo s _ _ hr]
  · intro hI h
    have hload (r : Nibble) (hr : r.toNat ≤ 2) :
        getV (setVUpTo (memReadRun u.mem u.I.toNat 3) u) r =
          memRead (memWriteRun s.mem s.I.toNat (decimalDigits (getV s x))) (s.I.toNat + r.toNat) := by
      rw [← mem_of_ldBVx hI h, ← hmem, ← hIu]
      exact getV_load (x := 2) hr
    obtain ⟨hhundreds, htens, hones⟩ := memRead_writeRun_decimalDigits s.mem s.I.toNat (getV s x)
    refine ⟨_, exec_ldVxMem_inRange (x := 2) (hIu ▸ hI), ?_, ?_, ?_⟩
    · exact (congrArg BitVec.toNat (hload 0 (by decide))).trans hhundreds
    · exact (congrArg BitVec.toNat (hload 1 (by decide))).trans htens
    · exact (congrArg BitVec.toNat (hload 2 (by decide))).trans hones

end Sys2Proof.Machine
end

section
/-! The random byte (43_const_random.md R169) and the key skips (46_keys_timers.md R211, R212). -/

namespace Sys2Proof.Machine

theorem getV_setV_drawRnd (x : Nibble) (kk : Byte) (s : State) :
    getV (advance (setV x (nextRnd s &&& kk) (drawRnd s))) x = nextRnd s &&& kk := getV_setV_same ..

/-- Settles O29: the byte drawn is the supplied one or the free one, and the mask keeps no bit outside it. -/
theorem randomByte : Obligations.RandomByte := by
  intro s x kk
  refine ⟨decodeWord_formatXK_rndVxKk x kk, _, exec_rndVxKk x kk s, rfl, fun b bs hsupply => ?supplied,
    fun hfree => ?free, rfl, fun k hbit => ?mask, (setV_drawRnd_changes x s _).advance⟩
  case supplied => exact ⟨by rw [getV_setV_drawRnd, nextRnd_supplied hsupply], congrArg List.tail hsupply⟩
  case free => rw [getV_setV_drawRnd, nextRnd_free hfree]
  case mask =>
    rw [getV_setV_drawRnd, BitVec.getLsbD_and, Bool.and_eq_true] at hbit
    exact hbit.2

/-- Settles O37: the two sides of the key number's check; in range, the shared skip. -/
theorem keySkips : Obligations.KeySkips := fun _ _ =>
  ⟨fun hV => ⟨exists_next_of_exec_skipIf (exec_skpVx_of_le hV) Iff.rfl,
      exists_next_of_exec_skipIf (exec_sknpVx_of_le hV) (iff_of_eq (Bool.not_eq_true' _))⟩,
    fun hV => ⟨exec_skpVx_of_gt hV, exec_sknpVx_of_gt hV⟩⟩

end Sys2Proof.Machine
end

section
/-! The host's ports (10_state.md R44 to R52): reset, the load window, the step with the host's byte, the outputs. -/

namespace Sys2Proof.Machine

/-! Reset (R40, R44). -/

theorem getV_reset (r : Nibble) : getV State.reset r = 0 := by
  simp [getV, State.reset]

theorem memRead_reset {a : Nat} {b : Byte} (h : Config.font[a]? = some b) : memRead State.reset.mem a = b := by
  simp [memRead, State.reset, memKnown, memUnlisted, h]

theorem keySet_reset (k : Nat) : keySet State.reset k = false := BitVec.getLsbD_zero

/-- Settles O1: the reset values, field by field; an unlisted address below the font's end holds its font byte. -/
theorem resetState : Obligations.ResetState := fun _ =>
  ⟨getV_reset, rfl, rfl, rfl, rfl, rfl, fun _ _ => memRead_reset, cell_cleared, keySet_reset, rfl⟩

/-! The load (R45, R282). -/

theorem loadRom_of_le {bytes : List Byte} (hlen : bytes.length ≤ 3584) (s : State) :
    loadRom bytes s = .ok (setMem (memWriteRun s.mem 0x200 bytes) s) := if_neg (Nat.not_lt.mpr hlen)

theorem loadRom_of_gt {bytes : List Byte} (hlen : 3584 < bytes.length) (s : State) :
    loadRom bytes s = .error .tooLong := if_pos hlen

/-- An accepted load writes memory alone. -/
theorem loadRom_ok {bytes : List Byte} {s t : State} (h : loadRom bytes s = .ok t) :
    t = setMem (memWriteRun s.mem 0x200 bytes) s := by
  by_cases hlen : bytes.length ≤ 3584
  · exact (Except.ok.inj ((loadRom_of_le hlen s).symm.trans h)).symm
  · cases (loadRom_of_gt (Nat.not_le.mp hlen) s).symm.trans h

section LoadMove

variable {w : System} {bytes : List Byte}

theorem hostMove_load_of_closed (h : w.loaded = true ∨ w.used = true) : hostMove (.load bytes) w = none :=
  if_pos ((Bool.or_eq_true ..).mpr h)

variable (hloaded : w.loaded = false) (hused : w.used = false)
include hloaded hused

theorem hostMove_load_ok {t : State} (h : loadRom bytes w.core = .ok t) :
    hostMove (.load bytes) w = some (.done, ⟨t, true, false⟩) := by
  simp [hostMove, moveLoad, hloaded, hused, h]

theorem hostMove_load_error {e : LoadError} (h : loadRom bytes w.core = .error e) :
    hostMove (.load bytes) w = some (.loadError, w) := by
  simp [hostMove, moveLoad, hloaded, hused, h]

end LoadMove

/-- What a load move can do: be accepted, which sets `loaded` and writes memory alone, or change nothing. -/
theorem hostMove_load_cases {w v : System} {bytes : List Byte} {r : Reply}
    (h : hostMove (.load bytes) w = some (r, v)) :
    w.used = false ∧ ((∃ t, loadRom bytes w.core = .ok t ∧ v = ⟨t, true, false⟩) ∨ v = w) := by
  have hopen : ¬ (w.loaded = true ∨ w.used = true) := fun hclosed => by
    rw [hostMove_load_of_closed hclosed] at h
    cases h
  rw [not_or, Bool.not_eq_true, Bool.not_eq_true] at hopen
  obtain ⟨hloaded, hused⟩ := hopen
  refine ⟨hused, ?_⟩
  cases hrom : loadRom bytes w.core with
  | ok t =>
    rw [hostMove_load_ok hloaded hused hrom] at h
    cases h
    exact .inl ⟨t, rfl, rfl⟩
  | error e =>
    rw [hostMove_load_error hloaded hused hrom] at h
    cases h
    exact .inr rfl

/-- Settles O48: the run of the ROM's bytes at `0x200`, or nothing. -/
theorem romLoad : Obligations.RomLoad := by
  refine fun s bytes => ⟨fun hlen => ?accepted, fun hlen => ?rejected⟩
  case accepted =>
    refine ⟨_, loadRom_of_le hlen s, hostMove_load_ok rfl rfl (loadRom_of_le hlen s), fun i b hb => ?_,
      storeRun_changes s 0x200 bytes⟩
    obtain ⟨hi, rfl⟩ := List.getElem?_eq_some_iff.mp hb
    exact memRead_writeRun_add s.mem 0x200 bytes i hi
  case rejected =>
    exact ⟨loadRom_of_gt hlen s, _, hostMove_load_error rfl rfl (loadRom_of_gt hlen s), rfl⟩

/-! The step move (R46). -/

theorem stepWith_eq {b : Byte} {s t : State} (h : step (supplyRnd b s) = .next t) :
    stepWith b s = .next (dropRnd t) := by
  rw [stepWith, h]

theorem hostMove_step {b : Byte} {w : System} {t : State} (h : step (supplyRnd b w.core) = .next t) :
    hostMove (.step b) w = some (.diag (stepDiag w.core), portUsed (dropRnd t) w) := by
  simp [hostMove, moveStep, stepWith_eq h]

theorem hostMove_step_cases {b : Byte} {w v : System} {r : Reply} (h : hostMove (.step b) w = some (r, v)) :
    ∃ t, step (supplyRnd b w.core) = .next t ∧ v = portUsed (dropRnd t) w := by
  obtain ⟨t, ht⟩ := exists_next_of_step (supplyRnd b w.core)
  rw [hostMove_step ht] at h
  exact ⟨t, ht, (Prod.mk.inj (Option.some.inj h)).2.symm⟩

/-- What a move other than reset and load does to the host's bookkeeping. -/
theorem hostMove_used {m : Move} {w v : System} {r : Reply} (hreset : m ≠ .reset) (hload : ∀ bytes, m ≠ .load bytes)
    (h : hostMove m w = some (r, v)) : v.used = true ∧ v.loaded = w.loaded := by
  cases m with
  | reset => exact absurd rfl hreset
  | load bytes => exact absurd rfl (hload bytes)
  | step b =>
    obtain ⟨t, _, rfl⟩ := hostMove_step_cases h
    exact ⟨rfl, rfl⟩
  | _ => cases h; exact ⟨rfl, rfl⟩

/-- Settles O51: the load window, the bookkeeping of every move, and the step with the host's byte. -/
theorem portOrder : Obligations.PortOrder := by
  intro w
  refine ⟨fun bytes hloaded hused =>
      ⟨fun t => hostMove_load_ok hloaded hused, fun e => hostMove_load_error hloaded hused⟩,
    fun bytes => hostMove_load_of_closed, fun m r v hreset h => ?flags, fun b => ?step⟩
  case flags =>
    by_cases hload : ∃ bytes, m = .load bytes
    · obtain ⟨bytes, rfl⟩ := hload
      obtain ⟨hused, ⟨t, _, rfl⟩ | rfl⟩ := hostMove_load_cases h
      · exact ⟨fun _ => rfl, fun hw => absurd (hused.symm.trans hw) Bool.false_ne_true,
          fun hne => absurd rfl (hne bytes)⟩
      · exact ⟨id, id, fun hne => absurd rfl (hne bytes)⟩
    · obtain ⟨hused, hloaded⟩ := hostMove_used hreset (fun bytes hm => hload ⟨bytes, hm⟩) h
      exact ⟨hloaded.trans, fun _ => hused, fun _ => ⟨hused, hloaded⟩⟩
  case step =>
    obtain ⟨t, ht⟩ := exists_next_of_step (supplyRnd b w.core)
    refine ⟨t, ht, hostMove_step ht, fun op x kk hfault hop hdec => ?_⟩
    have hexec := exec_rndVxKk x kk (tickTimers (supplyRnd b w.core))
    rw [eq_of_step_of_exec (s := supplyRnd b w.core) hfault hop ht hdec hexec, getV_setV_drawRnd]
    rfl

/-- Settles O52: a load writes memory alone, a step of a halted core nothing, and no other move touches the latch. -/
theorem resetOnlyWayOut : Obligations.ResetOnlyWayOut := by
  refine ⟨fun w => rfl, fun w v m r hreset h hfault => ?_⟩
  cases m with
  | reset => exact absurd rfl hreset
  | load bytes =>
    obtain ⟨_, ⟨t, hrom, rfl⟩ | rfl⟩ := hostMove_load_cases h
    · obtain rfl := loadRom_ok hrom
      rfl
    · rfl
  | step b =>
    obtain ⟨t, ht, rfl⟩ := hostMove_step_cases h
    obtain rfl := Host.Outcome.next.inj ((step_of_halted (s := supplyRnd b w.core) hfault).symm.trans ht)
    rfl
  | _ => cases h; rfl

/-- Settles O54: each port gives its field, and the code is that of the latch. -/
theorem outputsRead : Obligations.OutputsRead := by
  refine fun w => ⟨⟨_, rfl, rfl⟩, w.core.fault.code, _, rfl, rfl, ?_⟩
  cases w.core.fault <;> decide

end Sys2Proof.Machine
end
